-- ==== Sys2Proof/Word.lean ====
section
/-! DEFINITION. The word types of the c8 CORE (spec/00_scope.md R6, R8): every quantity is unsigned. -/

namespace Sys2Proof

/-- A byte: a general register, a timer, a memory cell, an immediate `kk` (R6, R93). -/
abbrev Byte := BitVec 8

/-- A 16-bit word: an instruction word, `I`, `pc`, a stack entry (R6). -/
abbrev Word := BitVec 16

/-- A 4-bit field: the tail `n` or a primary opcode `head` (spec/30_encoding.md R91). -/
abbrev Nibble := BitVec 4

/-- The index of a general register, "always 0–15 by construction of the decoder" (spec/10_state.md R22). -/
abbrev Reg := BitVec 4

/-- A 12-bit address field `nnn` (spec/30_encoding.md R91). -/
abbrev Addr12 := BitVec 12

/-- The framebuffer `FB[row][col]`: 32 rows of 64 one-bit cells (spec/10_state.md R32). -/
abbrev FrameBuffer := Vector (Vector Bool 64) 32

/-- The framebuffer with every cell unset (spec/10_state.md R40). -/
def FrameBuffer.blank : FrameBuffer := Vector.replicate 32 (Vector.replicate 64 false)

end Sys2Proof
end

