-- ==== Sys2Proof/Config.lean ====
section
/-! DEFINITION. What one machine fixes (spec/00_scope.md R6, R7) and the free values no source fixes
(spec/93_implementation_defined.md part 1a). -/

namespace Sys2Proof

/-! ## Sizes the document fixes (R6) -/

/-- First address a program may touch, RESERVED_LIMIT (R6). -/
abbrev Config.reservedLimit : Nat := 512

/-- Memory size in bytes, MEM_SIZE (R6). -/
abbrev Config.memSize : Nat := 4096

/-- Program load address and reset value of pc, LOAD_BASE (R6). -/
abbrev Config.loadBase : Nat := 512

/-- Call stack capacity, STACK_DEPTH (R6). -/
abbrev Config.stackDepth : Nat := 16

/-- Index of the flag register VF, FLAG_REG (R6). -/
abbrev Config.flagReg : Reg := 15

/-! ## Points left to the implementer (R7): their possible values -/

/-- SHIFT_SOURCE (R7, D2, U10): the register `8xy6` and `8xyE` shift. -/
inductive ShiftSource where
  | vx
  | vy
  deriving DecidableEq, Repr

/-- FLAG_ORDER (R7, D3, U11): which of the VF write and the destination write comes first. -/
inductive FlagOrder where
  | flagFirst
  | flagLast
  deriving DecidableEq, Repr

/-- SUB_RESULT (R7, D4, U12): the result of a borrowing subtract. -/
inductive SubResult where
  | wrapped
  | clamped
  deriving DecidableEq, Repr

/-- MEMOPS_INC_I (R7, D6): what `Fx55` and `Fx65` add to I once they have completed. -/
inductive MemopsIncI where
  | unchanged
  | byX
  | byXPlusOne
  deriving DecidableEq, Repr

/-- JUMP_OFFSET_REG (R7, D7): the register `Bnnn` adds. -/
inductive JumpOffsetReg where
  | v0
  | vx
  deriving DecidableEq, Repr

/-- The fault cause codes (R7, D18), one for each cause of spec/60_exceptions.md R222. -/
structure CauseCodes where
  /-- The code of MemoryOutOfRange. -/
  memoryOutOfRange : Nat
  /-- The code of StackOverflow. -/
  stackOverflow : Nat
  /-- The code of StackUnderflow. -/
  stackUnderflow : Nat
  /-- The code of InvalidInstruction. -/
  invalidInstruction : Nat
  deriving DecidableEq, Repr

/-- The named parameters of R7. `Sys2Proof.Machine.params` is the one value this machine has. -/
structure Params where
  /-- FONT_BASE, first address of the font table (D17). -/
  fontBase : Word
  /-- FONT_TABLE, the 80 font bytes (D17, spec/20_memory.md R74). -/
  fontTable : List Byte
  /-- SHIFT_SOURCE (D2). -/
  shiftSource : ShiftSource
  /-- FLAG_ORDER (D3). -/
  flagOrder : FlagOrder
  /-- SUB_RESULT (D4). -/
  subResult : SubResult
  /-- LOGIC_RESETS_VF, whether `8xy1/2/3` write VF (D5). -/
  logicResetsVf : Bool
  /-- MEMOPS_INC_I (D6). -/
  memopsIncI : MemopsIncI
  /-- JUMP_OFFSET_REG (D7). -/
  jumpOffsetReg : JumpOffsetReg
  /-- ADD_I_FLAG, whether `Fx1E` writes VF (D8). -/
  addIFlag : Bool
  /-- ZERO_HEAD_MASK, the bits compared for `00E0` and `00EE` (D10). -/
  zeroHeadMask : Word
  /-- I_RESET, the reset value of I (D15). -/
  iReset : Word
  /-- FB_RESET, the reset value of the framebuffer (D16). -/
  fbReset : FrameBuffer
  /-- LENIENT_INVALID, whether Invalid executes as a no-op (D22). -/
  lenientInvalid : Bool
  /-- The fault cause codes (D18). -/
  causeCodes : CauseCodes
  deriving DecidableEq, Repr

/-! ## Free values (U1 to U4, U6)

Each is a constant with no body, applied to the instant (the model's count of steps), so nothing can be
proved of its value and a statement about it holds for every value. Log entries 1, 2, 4 and 5.

DESIGN CHOICE (log entry 22): the argument is the instant alone, so two States with equal instant see the same inputs and
the same numbers of ticks. The spec leaves it open whether two instances do (spec/10_state.md R42; R155 promises nothing of
two cores). -/

/-- `KeyHeld(k)` at an instant (spec/44_timers_keys.md R200): for k ≤ 15 the level of logical key k, an input;
for k above 15 an unspecified Boolean (U1). -/
opaque Config.keyHeld : Nat → Byte → Bool

/-- `KeyWait()` at an instant (spec/44_timers_keys.md R201): none, or a logical key 0–15 of the collaborator's choice (U2). -/
opaque Config.keyWait : Nat → Option Nibble

/-- `RandByte()` at an instant (spec/41_alu.md R155): any byte (U4). That two States with equal instant draw the same byte is
the model's choice, which R155 does not promise of two cores (log entry 22). -/
opaque Config.randByte : Nat → Byte

/-- The new I after `Fx29` with V[x] above 15 (spec/42_index_memory.md R173): any 16-bit value (U3). -/
opaque Config.fontDraw : Nat → Word

/-- How many delay-timer ticks fall between the core step of an instant and the next core step
(spec/60_exceptions.md R241): any number, zero included (U6). -/
opaque Config.dtTicks : Nat → Nat

/-- The same of the sound-timer ticks; the two timers tick independently (R240, R241, U6). -/
opaque Config.stTicks : Nat → Nat

end Sys2Proof
end

