-- ==== Sys2Proof/Machine/Params.lean ====
section
/-! DEFINITION. The values the spec takes for the parameters of spec/00_scope.md R7. -/

namespace Sys2Proof.Machine

/-- FONT_TABLE: glyph `d` is the five bytes at offset 5·d, top row first (spec/20_memory.md R74). -/
def fontBytes : List Byte :=
  [0xF0, 0x90, 0x90, 0x90, 0xF0,   -- 0
   0x20, 0x60, 0x20, 0x20, 0x70,   -- 1
   0xF0, 0x10, 0xF0, 0x80, 0xF0,   -- 2
   0xF0, 0x10, 0xF0, 0x10, 0xF0,   -- 3
   0x90, 0x90, 0xF0, 0x10, 0x10,   -- 4
   0xF0, 0x80, 0xF0, 0x10, 0xF0,   -- 5
   0xF0, 0x80, 0xF0, 0x90, 0xF0,   -- 6
   0xF0, 0x10, 0x20, 0x40, 0x40] ++ -- 7
  [0xF0, 0x90, 0xF0, 0x90, 0xF0,   -- 8
   0xF0, 0x90, 0xF0, 0x10, 0xF0,   -- 9
   0xF0, 0x90, 0xF0, 0x90, 0x90,   -- A
   0xE0, 0x90, 0xE0, 0x90, 0xE0,   -- B
   0xF0, 0x80, 0x80, 0x80, 0xF0,   -- C
   0xE0, 0x90, 0x90, 0x90, 0xE0,   -- D
   0xF0, 0x80, 0xF0, 0x80, 0xF0,   -- E
   0xF0, 0x80, 0xF0, 0x80, 0x80]   -- F

/-- The defaults of R7 (decisions D2 to D22 of spec/92_eei_decisions.md). Log entry 6. -/
def params : Params where
  fontBase := 0x50
  fontTable := fontBytes
  shiftSource := .vx
  flagOrder := .flagFirst
  subResult := .wrapped
  logicResetsVf := false
  memopsIncI := .unchanged
  jumpOffsetReg := .v0
  addIFlag := false
  zeroHeadMask := 0xF0FF
  iReset := 0
  fbReset := FrameBuffer.blank
  lenientInvalid := false
  causeCodes := { memoryOutOfRange := 1, stackOverflow := 2, stackUnderflow := 3, invalidInstruction := 4 }

end Sys2Proof.Machine
end

