-- ==== Sys2Proof/Syntax.lean ====
section
/-! DEFINITION. The instruction set: one constructor per row of spec/opcode_table.json, that is the 34 rows of
spec/30_encoding.md R98, each carrying the operand fields of its format (R92). -/

namespace Sys2Proof

/-- The 34 instructions (R98). The field x of CLS and RET, and y of SHR and SHL, is carried and does not affect the
result (R99), so an instruction determines its word. Log entry 10. -/
inductive Instr where
  /-- `00E0` CLS: clear the framebuffer. -/
  | cls (x : Nibble)
  /-- `00EE` RET: return from a call. -/
  | ret (x : Nibble)
  /-- `1nnn` JP nnn: jump. -/
  | jp (nnn : Addr12)
  /-- `2nnn` CALL nnn: call. -/
  | call (nnn : Addr12)
  /-- `3xkk` SE Vx, kk: skip if equal. -/
  | seImm (x : Reg) (kk : Byte)
  /-- `4xkk` SNE Vx, kk: skip if not equal. -/
  | sneImm (x : Reg) (kk : Byte)
  /-- `5xy0` SE Vx, Vy: skip if registers are equal. -/
  | seReg (x y : Reg)
  /-- `6xkk` LD Vx, kk: load byte. -/
  | ldImm (x : Reg) (kk : Byte)
  /-- `7xkk` ADD Vx, kk: add byte, no flag. -/
  | addImm (x : Reg) (kk : Byte)
  /-- `8xy0` LD Vx, Vy: copy. -/
  | ldReg (x y : Reg)
  /-- `8xy1` OR Vx, Vy. -/
  | orReg (x y : Reg)
  /-- `8xy2` AND Vx, Vy. -/
  | andReg (x y : Reg)
  /-- `8xy3` XOR Vx, Vy. -/
  | xorReg (x y : Reg)
  /-- `8xy4` ADD Vx, Vy: add, VF is the carry. -/
  | addReg (x y : Reg)
  /-- `8xy5` SUB Vx, Vy: Vx − Vy, VF is no-borrow. -/
  | sub (x y : Reg)
  /-- `8xy6` SHR Vx: shift right by one. -/
  | shr (x y : Reg)
  /-- `8xy7` SUBN Vx, Vy: Vy − Vx, VF is no-borrow. -/
  | subn (x y : Reg)
  /-- `8xyE` SHL Vx: shift left by one. -/
  | shl (x y : Reg)
  /-- `9xy0` SNE Vx, Vy: skip if registers differ. -/
  | sneReg (x y : Reg)
  /-- `Annn` LD I, nnn. -/
  | ldI (nnn : Addr12)
  /-- `Bnnn` JP V0, nnn: jump with offset. -/
  | jpV0 (nnn : Addr12)
  /-- `Cxkk` RND Vx, kk: random byte under a mask. -/
  | rnd (x : Reg) (kk : Byte)
  /-- `Dxyn` DRW Vx, Vy, n: draw an n-row sprite. -/
  | drw (x y : Reg) (n : Nibble)
  /-- `Ex9E` SKP Vx: skip if key held. -/
  | skp (x : Reg)
  /-- `ExA1` SKNP Vx: skip if key not held. -/
  | sknp (x : Reg)
  /-- `Fx07` LD Vx, DT. -/
  | ldVxDt (x : Reg)
  /-- `Fx0A` LD Vx, K: wait for a key. -/
  | ldVxK (x : Reg)
  /-- `Fx15` LD DT, Vx. -/
  | ldDtVx (x : Reg)
  /-- `Fx18` LD ST, Vx. -/
  | ldStVx (x : Reg)
  /-- `Fx1E` ADD I, Vx. -/
  | addIVx (x : Reg)
  /-- `Fx29` LD F, Vx: font address. -/
  | ldFVx (x : Reg)
  /-- `Fx33` LD B, Vx: store binary-coded decimal. -/
  | ldBVx (x : Reg)
  /-- `Fx55` LD [I], Vx: store V0 to Vx. -/
  | ldMemVx (x : Reg)
  /-- `Fx65` LD Vx, [I]: load V0 to Vx. -/
  | ldVxMem (x : Reg)
  deriving DecidableEq, Repr

end Sys2Proof
end

