-- ==== Sys2Proof/WellFormed.lean ====
section
/-! DEFINITION. Which instruction terms stand for a word of the machine. The fields' types already bound them
(spec/30_encoding.md R93: every operand is an unsigned field used as it is), so one check is left: the ignored field x of
CLS and RET must be one that ZERO_HEAD_MASK lets through (R98, R99; decision D10). -/

namespace Sys2Proof

/-- The check, for a given ZERO_HEAD_MASK: a bit of x that the mask compares must be 0. Log entry 19. -/
def wellFormedWith (zeroHeadMask : Word) : Instr → Bool
  | .cls x | .ret x => (zeroHeadMask.extractLsb' 8 4) &&& x == 0
  | .jp _ | .call _ | .seImm _ _ | .sneImm _ _ | .seReg _ _ | .ldImm _ _ | .addImm _ _ | .ldReg _ _ | .orReg _ _
  | .andReg _ _ | .xorReg _ _ | .addReg _ _ | .sub _ _ | .shr _ _ | .subn _ _ | .shl _ _ | .sneReg _ _ | .ldI _
  | .jpV0 _ | .rnd _ _ | .drw _ _ _ | .skp _ | .sknp _ | .ldVxDt _ | .ldVxK _ | .ldDtVx _ | .ldStVx _ | .addIVx _
  | .ldFVx _ | .ldBVx _ | .ldMemVx _ | .ldVxMem _ => true

/-- Well-formedness on this machine; under the spec's mask 0xF0FF every term passes. -/
def wellFormed (i : Instr) : Bool := wellFormedWith Machine.params.zeroHeadMask i

end Sys2Proof
end

