-- ==== Sys2Proof/Decode.lean ====
section
/-! DEFINITION. The decoder and the encoder (spec/30_encoding.md R90 to R100), and the opcode table R98 as data.
Log entry 20. -/

namespace Sys2Proof

/-! ## Fields of an instruction word (R91) -/

/-- `head`, bits 15–12. -/
def fieldHead (w : Word) : Nibble := w.extractLsb' 12 4

/-- `x`, bits 11–8 (the document's neck). -/
def fieldX (w : Word) : Reg := w.extractLsb' 8 4

/-- `y`, bits 7–4 (the document's body). -/
def fieldY (w : Word) : Reg := w.extractLsb' 4 4

/-- `n`, bits 3–0 (the document's tail). -/
def fieldN (w : Word) : Nibble := w.extractLsb' 0 4

/-- `kk`, the low byte. -/
def fieldKK (w : Word) : Byte := w.extractLsb' 0 8

/-- `nnn`, the low 12 bits. -/
def fieldNNN (w : Word) : Addr12 := w.extractLsb' 0 12

/-- The word of two bytes, the byte at the lower address on the left (spec/20_memory.md R65). -/
def wordOfBytes (hi lo : Byte) : Word := hi ++ lo

/-- The high byte of a word, stored at the lower address (R65). -/
def highByte (w : Word) : Byte := w.extractLsb' 8 8

/-- The low byte of a word. -/
def lowByte (w : Word) : Byte := w.extractLsb' 0 8

/-! ## Formats (R92) -/

/-- Format `A`: head and address. -/
def wordA (head : Nibble) (nnn : Addr12) : Word := head ++ nnn

/-- Formats `Z`, `XK` and `X`: head, register field and low byte. -/
def wordXK (head : Nibble) (x : Reg) (kk : Byte) : Word := head ++ x ++ kk

/-- Formats `XY` and `XYN`: four nibbles. -/
def wordXY (head : Nibble) (x y : Reg) (n : Nibble) : Word := head ++ x ++ y ++ n

/-! ## The decoder -/

/-- The decoder's result: one of the 34 instructions, or `Invalid` carrying the whole word (R94). -/
inductive Decoded where
  | instr (i : Instr)
  | invalid (w : Word)
  deriving DecidableEq, Repr

/-- Head 0: dispatch on the word under ZERO_HEAD_MASK (R96, R99; C10). -/
def decodeHead0 (zeroHeadMask w : Word) : Decoded :=
  if w &&& zeroHeadMask = 0x00E0 then .instr (.cls (fieldX w))
  else if w &&& zeroHeadMask = 0x00EE then .instr (.ret (fieldX w))
  else .invalid w

/-- Head 8: dispatch on the tail (R96). -/
def decodeHead8 (w : Word) : Decoded :=
  match (fieldN w).toNat with
  | 0x0 => .instr (.ldReg (fieldX w) (fieldY w))
  | 0x1 => .instr (.orReg (fieldX w) (fieldY w))
  | 0x2 => .instr (.andReg (fieldX w) (fieldY w))
  | 0x3 => .instr (.xorReg (fieldX w) (fieldY w))
  | 0x4 => .instr (.addReg (fieldX w) (fieldY w))
  | 0x5 => .instr (.sub (fieldX w) (fieldY w))
  | 0x6 => .instr (.shr (fieldX w) (fieldY w))
  | 0x7 => .instr (.subn (fieldX w) (fieldY w))
  | 0xE => .instr (.shl (fieldX w) (fieldY w))
  | _ => .invalid w

/-- Head E: dispatch on the low byte (R96). -/
def decodeHeadE (w : Word) : Decoded :=
  match (fieldKK w).toNat with
  | 0x9E => .instr (.skp (fieldX w))
  | 0xA1 => .instr (.sknp (fieldX w))
  | _ => .invalid w

/-- Head F: dispatch on the low byte (R96). -/
def decodeHeadF (w : Word) : Decoded :=
  match (fieldKK w).toNat with
  | 0x07 => .instr (.ldVxDt (fieldX w))
  | 0x0A => .instr (.ldVxK (fieldX w))
  | 0x15 => .instr (.ldDtVx (fieldX w))
  | 0x18 => .instr (.ldStVx (fieldX w))
  | 0x1E => .instr (.addIVx (fieldX w))
  | 0x29 => .instr (.ldFVx (fieldX w))
  | 0x33 => .instr (.ldBVx (fieldX w))
  | 0x55 => .instr (.ldMemVx (fieldX w))
  | 0x65 => .instr (.ldVxMem (fieldX w))
  | _ => .invalid w

/-- `Decode(w)` (R96), for a given ZERO_HEAD_MASK. -/
def decodeWith (zeroHeadMask w : Word) : Decoded :=
  match (fieldHead w).toNat with
  | 0x0 => decodeHead0 zeroHeadMask w
  | 0x1 => .instr (.jp (fieldNNN w))
  | 0x2 => .instr (.call (fieldNNN w))
  | 0x3 => .instr (.seImm (fieldX w) (fieldKK w))
  | 0x4 => .instr (.sneImm (fieldX w) (fieldKK w))
  | 0x5 => if fieldN w = 0 then .instr (.seReg (fieldX w) (fieldY w)) else .invalid w
  | 0x6 => .instr (.ldImm (fieldX w) (fieldKK w))
  | 0x7 => .instr (.addImm (fieldX w) (fieldKK w))
  | 0x8 => decodeHead8 w
  | 0x9 => if fieldN w = 0 then .instr (.sneReg (fieldX w) (fieldY w)) else .invalid w
  | 0xA => .instr (.ldI (fieldNNN w))
  | 0xB => .instr (.jpV0 (fieldNNN w))
  | 0xC => .instr (.rnd (fieldX w) (fieldKK w))
  | 0xD => .instr (.drw (fieldX w) (fieldY w) (fieldN w))
  | 0xE => decodeHeadE w
  | 0xF => decodeHeadF w
  | _ => .invalid w

/-- `Decode(w)` on this machine: pure and total (R95). -/
def decode (w : Word) : Decoded := decodeWith Machine.params.zeroHeadMask w

/-- Why bytes are not an instruction. -/
inductive DecodeReject where
  /-- Fewer than the two bytes every instruction has (R90). -/
  | truncated
  /-- The word decodes to `Invalid` (R100). -/
  | invalidInstruction (w : Word)
  deriving DecidableEq, Repr

/-- The decoder on bytes in memory order: an instruction is the first two, the rest is given back (R90, R102). -/
def decodeBytes : List Byte → Except DecodeReject (Instr × List Byte)
  | hi :: lo :: rest =>
    match decode (wordOfBytes hi lo) with
    | .instr i => .ok (i, rest)
    | .invalid w => .error (.invalidInstruction w)
  | _ => .error .truncated

/-! ## The encoder -/

/-- The word of an instruction (R92, R98). -/
def encode : Instr → Word
  | .cls x => wordXK 0x0 x 0xE0
  | .ret x => wordXK 0x0 x 0xEE
  | .jp nnn => wordA 0x1 nnn
  | .call nnn => wordA 0x2 nnn
  | .seImm x kk => wordXK 0x3 x kk
  | .sneImm x kk => wordXK 0x4 x kk
  | .seReg x y => wordXY 0x5 x y 0x0
  | .ldImm x kk => wordXK 0x6 x kk
  | .addImm x kk => wordXK 0x7 x kk
  | .ldReg x y => wordXY 0x8 x y 0x0
  | .orReg x y => wordXY 0x8 x y 0x1
  | .andReg x y => wordXY 0x8 x y 0x2
  | .xorReg x y => wordXY 0x8 x y 0x3
  | .addReg x y => wordXY 0x8 x y 0x4
  | .sub x y => wordXY 0x8 x y 0x5
  | .shr x y => wordXY 0x8 x y 0x6
  | .subn x y => wordXY 0x8 x y 0x7
  | .shl x y => wordXY 0x8 x y 0xE
  | .sneReg x y => wordXY 0x9 x y 0x0
  | .ldI nnn => wordA 0xA nnn
  | .jpV0 nnn => wordA 0xB nnn
  | .rnd x kk => wordXK 0xC x kk
  | .drw x y n => wordXY 0xD x y n
  | .skp x => wordXK 0xE x 0x9E
  | .sknp x => wordXK 0xE x 0xA1
  | .ldVxDt x => wordXK 0xF x 0x07
  | .ldVxK x => wordXK 0xF x 0x0A
  | .ldDtVx x => wordXK 0xF x 0x15
  | .ldStVx x => wordXK 0xF x 0x18
  | .addIVx x => wordXK 0xF x 0x1E
  | .ldFVx x => wordXK 0xF x 0x29
  | .ldBVx x => wordXK 0xF x 0x33
  | .ldMemVx x => wordXK 0xF x 0x55
  | .ldVxMem x => wordXK 0xF x 0x65

/-! ## The opcode table as data (R98) -/

/-- A row of R98: a word `w` selects it when `w AND mask = pattern`. -/
structure OpcodeRow where
  name : String
  mask : Word
  pattern : Word
  deriving DecidableEq, Repr

/-- Rows 1 to 17 of R98. -/
def opcodeRowsLow : List OpcodeRow :=
  [⟨"CLS", 0xF0FF, 0x00E0⟩, ⟨"RET", 0xF0FF, 0x00EE⟩, ⟨"JP", 0xF000, 0x1000⟩, ⟨"CALL", 0xF000, 0x2000⟩,
   ⟨"SE_IMM", 0xF000, 0x3000⟩, ⟨"SNE_IMM", 0xF000, 0x4000⟩, ⟨"SE_REG", 0xF00F, 0x5000⟩,
   ⟨"LD_IMM", 0xF000, 0x6000⟩, ⟨"ADD_IMM", 0xF000, 0x7000⟩, ⟨"LD_REG", 0xF00F, 0x8000⟩,
   ⟨"OR", 0xF00F, 0x8001⟩, ⟨"AND", 0xF00F, 0x8002⟩, ⟨"XOR", 0xF00F, 0x8003⟩, ⟨"ADD_REG", 0xF00F, 0x8004⟩,
   ⟨"SUB", 0xF00F, 0x8005⟩, ⟨"SHR", 0xF00F, 0x8006⟩, ⟨"SUBN", 0xF00F, 0x8007⟩]

/-- Rows 18 to 34 of R98. -/
def opcodeRowsHigh : List OpcodeRow :=
  [⟨"SHL", 0xF00F, 0x800E⟩, ⟨"SNE_REG", 0xF00F, 0x9000⟩, ⟨"LD_I", 0xF000, 0xA000⟩, ⟨"JP_V0", 0xF000, 0xB000⟩,
   ⟨"RND", 0xF000, 0xC000⟩, ⟨"DRW", 0xF000, 0xD000⟩, ⟨"SKP", 0xF0FF, 0xE09E⟩, ⟨"SKNP", 0xF0FF, 0xE0A1⟩,
   ⟨"LD_VX_DT", 0xF0FF, 0xF007⟩, ⟨"LD_VX_K", 0xF0FF, 0xF00A⟩, ⟨"LD_DT_VX", 0xF0FF, 0xF015⟩,
   ⟨"LD_ST_VX", 0xF0FF, 0xF018⟩, ⟨"ADD_I_VX", 0xF0FF, 0xF01E⟩, ⟨"LD_F_VX", 0xF0FF, 0xF029⟩,
   ⟨"LD_B_VX", 0xF0FF, 0xF033⟩, ⟨"LD_MEM_VX", 0xF0FF, 0xF055⟩, ⟨"LD_VX_MEM", 0xF0FF, 0xF065⟩]

/-- The complete instruction list of R98, in its order. -/
def opcodeRows : List OpcodeRow := opcodeRowsLow ++ opcodeRowsHigh

/-- The identifier R98 gives an instruction. -/
def mnemonic : Instr → String
  | .cls _ => "CLS"
  | .ret _ => "RET"
  | .jp _ => "JP"
  | .call _ => "CALL"
  | .seImm _ _ => "SE_IMM"
  | .sneImm _ _ => "SNE_IMM"
  | .seReg _ _ => "SE_REG"
  | .ldImm _ _ => "LD_IMM"
  | .addImm _ _ => "ADD_IMM"
  | .ldReg _ _ => "LD_REG"
  | .orReg _ _ => "OR"
  | .andReg _ _ => "AND"
  | .xorReg _ _ => "XOR"
  | .addReg _ _ => "ADD_REG"
  | .sub _ _ => "SUB"
  | .shr _ _ => "SHR"
  | .subn _ _ => "SUBN"
  | .shl _ _ => "SHL"
  | .sneReg _ _ => "SNE_REG"
  | .ldI _ => "LD_I"
  | .jpV0 _ => "JP_V0"
  | .rnd _ _ => "RND"
  | .drw _ _ _ => "DRW"
  | .skp _ => "SKP"
  | .sknp _ => "SKNP"
  | .ldVxDt _ => "LD_VX_DT"
  | .ldVxK _ => "LD_VX_K"
  | .ldDtVx _ => "LD_DT_VX"
  | .ldStVx _ => "LD_ST_VX"
  | .addIVx _ => "ADD_I_VX"
  | .ldFVx _ => "LD_F_VX"
  | .ldBVx _ => "LD_B_VX"
  | .ldMemVx _ => "LD_MEM_VX"
  | .ldVxMem _ => "LD_VX_MEM"

/-! ## The host's probe -/

/-- The two bytes of a row's word as memory holds them: `w` counts bits from the least significant bit of the word, the
bits above `nbits` are 0, and the high byte lies at the lower address (spec/20_memory.md R65). -/
def tableBytes (nbits w : Nat) : List Byte :=
  let word : Word := BitVec.ofNat 16 (w % 2 ^ nbits)
  [highByte word, lowByte word]

/-- The instruction the decoder reads from a word numbered as spec/opcode_table.json numbers it. -/
def decodeTableWord (nbits w : Nat) : Option Instr :=
  match decodeBytes (tableBytes nbits w) with
  | .ok (i, _) => some i
  | .error _ => none

end Sys2Proof
end

