-- ==== Sys2Proof/Machine/State.lean ====
section
/-! DEFINITION. The state of the c8 CORE as plain data (spec/10_state.md R22 to R41), and the machine right after reset (R40). -/

namespace Sys2Proof.Machine

/-- The control phase (R35): running, waiting for a key for register x, or stopped by a fault. -/
inductive Phase where
  | run
  | waitKey (x : Reg)
  | fault
  deriving DecidableEq, Repr

/-- The four causes, a closed list (spec/60_exceptions.md R220, R222). -/
inductive FaultCause where
  | memoryOutOfRange
  | stackOverflow
  | stackUnderflow
  | invalidInstruction
  deriving DecidableEq, Repr

/-- The fault record (spec/60_exceptions.md R226). -/
structure FaultRecord where
  /-- `fault_cause`. -/
  cause : FaultCause
  /-- `fault_addr`, 17 bits: the address the gate refused; none where it is not meaningful (log entry 11). -/
  addr : Option (BitVec 17)
  /-- `fault_word`: the word fetched in the faulting step, or none. -/
  word : Option Word
  /-- `fault_pc`: the value pc had when the faulting step began. -/
  pc : Word
  deriving DecidableEq, Repr

/-- Memory: the cells that do not hold the unlisted value, addresses strictly rising. -/
abbrev Memory := List Host.Cell

/-- What an unlisted address reads as: memory is "constructed zero-filled" (R40). Log entry 18. -/
def Memory.unlisted : Byte := 0

/-- Everything the spec gives the machine (R22 to R41), and the model's own count of steps. -/
structure State where
  /-- `V[0]` … `V[15]`; `V[15]` is VF (R22, R23). -/
  v : Vector Byte 16
  /-- The index register I (R25). -/
  i : Word
  /-- The program counter (R26). -/
  pc : Word
  /-- The call stack, the newest entry first; SP is its length (R27). Log entry 12. -/
  stack : List Word
  /-- The delay timer DT (R30). -/
  dt : Byte
  /-- The sound timer ST (R31). -/
  st : Byte
  /-- The delay timer's run bit `dt_run` (R41). -/
  dtRun : Bool
  /-- The sound timer's run bit `st_run` (R41). -/
  stRun : Bool
  /-- The framebuffer `FB[row][col]` (R32). -/
  fb : FrameBuffer
  /-- The memory `MEM[0]` … `MEM[4095]` (R34). -/
  mem : Memory
  /-- The control phase (R35). -/
  phase : Phase
  /-- The fault record, none while no fault is recorded (R36). -/
  faultRecord : Option FaultRecord
  /-- The MODEL'S own field, not the spec's: how many steps have been made; every free input is drawn at it. -/
  instant : Nat
  deriving DecidableEq, Repr

/-- Reasons for the outcome `fault` of Host.Core. There are none: each of the spec's four faults is a state the machine
is in afterwards (phase FAULT with its record, partial effects kept, timers counting, reset possible; R221, R228,
R229), so the step that raises one answers that state (log entry 8). Nobody raises a `Fault`, so the type is empty (safe). -/
inductive Fault : Type
  deriving DecidableEq, Repr

/-- Reasons for the outcome `refused` of Host.Core. -/
inductive Refusal where
  /-- Raised only by an arm of `exec` whose instruction has no meaning yet; no arm is left that does (safe: it stops). -/
  | notModelled (mnemonic : String)
  deriving DecidableEq, Repr

/-- What a step or a meaning answers. -/
abbrev Result := Host.Outcome State Fault Refusal

/-- The machine after reset: the column "after reset" of R40. -/
def State.reset : State where
  v := Vector.replicate 16 0
  i := params.iReset
  pc := BitVec.ofNat 16 Config.loadBase
  stack := []
  dt := 0
  st := 0
  dtRun := false
  stRun := false
  fb := params.fbReset
  mem := []
  phase := .run
  faultRecord := none
  instant := 0

end Sys2Proof.Machine
end

