-- ==== Sys2Proof/Machine/Ops.lean ====
section
/-! DEFINITION. The named operations over memory, registers, the stack and the phase, and taking a fault. -/

namespace Sys2Proof.Machine

/-! ## Memory cells -/

/-- The cell of an address, past the guard (`MEM[a]` of spec/00_scope.md R9). -/
def Memory.read : Memory → Nat → Byte
  | [], _ => Memory.unlisted
  | (b, x) :: m, a => if a = b then x else Memory.read m a

/-- Memory without the cell of an address. -/
def Memory.erase (m : Memory) (a : Nat) : Memory := m.filter (fun c => c.1 != a)

/-- A cell put in its place, before the first higher address. -/
def Memory.insert : Memory → Nat → Byte → Memory
  | [], a, v => [(a, v)]
  | (b, x) :: m, a, v => if a < b then (a, v) :: (b, x) :: m else (b, x) :: Memory.insert m a v

/-- `MEM[a] <- v`, past the guard; a cell that takes the unlisted value is not listed. -/
def Memory.write (m : Memory) (a : Nat) (v : Byte) : Memory :=
  if v = Memory.unlisted then m.erase a else (m.erase a).insert a v

/-- The canonical form: addresses strictly rising and inside the 4096 bytes (R60), no cell that holds the unlisted value. -/
def Memory.wf : Memory → Bool
  | [] => true
  | (a, v) :: m => decide (a < Config.memSize) && v != Memory.unlisted && m.all (fun c => decide (a < c.1)) && Memory.wf m

/-- One cell of the state's memory, past the guard. -/
def State.peek (s : State) (a : Nat) : Byte := s.mem.read a

/-! ## The guard and the two access primitives (spec/20_memory.md R62 to R64) -/

/-- The guard: an access is allowed exactly when 512 ≤ addr ≤ 4095 (R62). -/
def inRange (a : Nat) : Bool := decide (Config.reservedLimit ≤ a) && decide (a < Config.memSize)

/-- `MemRead(a, 1)` (R63); none when the guard refuses the address. -/
def memRead (a : Nat) (s : State) : Option Byte :=
  if inRange a then some (s.peek a) else none

/-- `MemWrite(a, 1, v)` (R64); none when the guard refuses the address. -/
def memWrite (a : Nat) (v : Byte) (s : State) : Option State :=
  if inRange a then some { s with mem := s.mem.write a v } else none

/-! ## General registers (spec/10_state.md R22, R23) -/

/-- `V[r]`. -/
def State.reg (s : State) (r : Reg) : Byte := s.v[r.toNat]'r.isLt

/-- `V[r] <- b`. -/
def State.setReg (s : State) (r : Reg) (b : Byte) : State := { s with v := s.v.set r.toNat b r.isLt }

/-! ## The call stack (spec/10_state.md R27 to R29) -/

/-- The stack depth `SP` (R27). -/
def State.sp (s : State) : Nat := s.stack.length

/-- The stack slot `STK[k]`, k = 0 the oldest; none at or above SP (R27). -/
def State.stk (s : State) (k : Nat) : Option Word := s.stack.reverse[k]?

/-- `Push(a)` (R28); none when 16 entries are held. -/
def push (a : Word) (s : State) : Option State :=
  if s.sp < Config.stackDepth then some { s with stack := a :: s.stack } else none

/-- `Pop()` (R29); none when the stack is empty. -/
def pop (s : State) : Option (Word × State) :=
  match s.stack with
  | [] => none
  | a :: rest => some (a, { s with stack := rest })

/-! ## Taking a fault (spec/60_exceptions.md R221, R226, R228)

There is no return from a fault and no handler (R229): only reset leaves phase FAULT (`hostReset`). -/

/-- The code of a cause (R222), for given codes. -/
def causeCodeWith (codes : CauseCodes) : FaultCause → Nat
  | .memoryOutOfRange => codes.memoryOutOfRange
  | .stackOverflow => codes.stackOverflow
  | .stackUnderflow => codes.stackUnderflow
  | .invalidInstruction => codes.invalidInstruction

/-- The code of a cause on this machine (R222; D18). Log entry 21. -/
def causeCode (c : FaultCause) : Nat := causeCodeWith params.causeCodes c

/-- `raise F(info)` (R221): write the fault record and enter phase FAULT; what the step did before stays (R228).
`word` is the word fetched in the step, if one was, and `at_` the value pc had when the step began. -/
def raise (cause : FaultCause) (addr : Option Nat) (word : Option Word) (at_ : Word) (s : State) : State :=
  { s with
    faultRecord := some { cause := cause, addr := addr.map (BitVec.ofNat 17), word := word, pc := at_ }
    phase := .fault }

/-- `raise` in the decode or execute stage: the fetch of `w` has succeeded and advanced pc by 2 (R68), and no
instruction writes pc before it raises, so the step began at pc − 2. Log entry 9. -/
def raiseAt (cause : FaultCause) (addr : Option Nat) (w : Word) (s : State) : State :=
  raise cause addr (some w) (s.pc - 2) s

/-! ## Runs of one-byte accesses in ascending address order (spec/20_memory.md R67, R70) -/

/-- Read `n` bytes from `a` on; the error is the first address the guard refuses. -/
def readBytes (s : State) : Nat → Nat → Except Nat (List Byte)
  | _, 0 => .ok []
  | a, n + 1 =>
    match memRead a s with
    | none => .error a
    | some b =>
      match readBytes s (a + 1) n with
      | .error e => .error e
      | .ok bs => .ok (b :: bs)

/-- Write bytes from `a` on. Answers the state reached, and the address at which the guard refused, if it did: the
bytes before it stay stored (R70). -/
def storeBytes : Nat → List Byte → State → State × Option Nat
  | _, [], s => (s, none)
  | a, b :: bs, s =>
    match memWrite a b s with
    | none => (s, some a)
    | some t => storeBytes (a + 1) bs t

/-- Load `n` registers, from register number `k` on, from the addresses `base + k` on. Answers as `storeBytes` does: the
registers before a refused address stay loaded (R70). -/
def loadRegs (base : Nat) : Nat → Nat → State → State × Option Nat
  | _, 0, s => (s, none)
  | k, n + 1, s =>
    match memRead (base + k) s with
    | none => (s, some (base + k))
    | some b => loadRegs base (k + 1) n (s.setReg (BitVec.ofNat 4 k) b)

/-- The end of an instruction that made such a run: done, or MemoryOutOfRange at the refused address (R70, R223). -/
def finishRun (i : Instr) : State × Option Nat → State
  | (s, none) => s
  | (s, some a) => raiseAt .memoryOutOfRange (some a) (encode i) s

/-! ## Control -/

/-- A skip when the condition holds: `pc <- (pc + 2) mod 65536` (spec/40_flow.md R120). -/
def skipIf (c : Bool) (s : State) : State := { s with pc := if c then s.pc + 2 else s.pc }

/-- `pc <- target`, not checked when written (R120). -/
def jumpTo (target : Word) (s : State) : State := { s with pc := target }

end Sys2Proof.Machine
end

