-- ==== Sys2Proof/Machine/Flags.lean ====
section
/-! DEFINITION. Every flag computation of the spec and the order of the two writes (spec/41_alu.md R140, R153). VF is the
only flag (spec/10_state.md R23). -/

namespace Sys2Proof.Machine

/-- A flag as VF holds it: 0 or 1 (R23). -/
def flagByte (b : Bool) : Byte := if b then 1 else 0

/-- Carry-out of an addition: the true sum exceeds 255 (R140, R147). -/
def carryOut (a b : Byte) : Bool := decide (a.toNat + b.toNat > 255)

/-- No borrow in `a − b`: a ≥ b, equality included (R140, R148; C5). -/
def noBorrow (a b : Byte) : Bool := decide (b.toNat ≤ a.toNat)

/-- The bit a right shift by one drops (R149). -/
def shiftedOutRight (a : Byte) : Bool := a.getLsbD 0

/-- The bit a left shift by one drops (R151). -/
def shiftedOutLeft (a : Byte) : Bool := a.getLsbD 7

/-- Write the flag to VF and the result to `V[x]`, in the order FLAG_ORDER: flag first, so that with x = 15 the result
is what VF holds (R153; spec/10_state.md R24). -/
def writeFlagged (order : FlagOrder) (x : Reg) (result : Byte) (flag : Bool) (s : State) : State :=
  match order with
  | .flagFirst => (s.setReg Config.flagReg (flagByte flag)).setReg x result
  | .flagLast => (s.setReg x result).setReg Config.flagReg (flagByte flag)

/-- The write of a logic instruction: VF is left alone, unless LOGIC_RESETS_VF (R144 to R146; D5). Log
entry 7. -/
def writeLogic (resetsVf : Bool) (order : FlagOrder) (x : Reg) (result : Byte) (s : State) : State :=
  if resetsVf then writeFlagged order x result false s else s.setReg x result

/-- The carry of `I + V[x]` out of 16 bits, which VF takes only under ADD_I_FLAG (R172; D8). Log entry 7. -/
def indexCarry (i : Word) (b : Byte) : Bool := decide (i.toNat + b.toNat > 65535)

end Sys2Proof.Machine
end

