-- ==== Sys2Proof/Machine/Operands.lean ====
section
/-! DEFINITION. Every operand form: how a field of the word or a register becomes a value (spec/30_encoding.md R93;
spec/42_index_memory.md R170). -/

namespace Sys2Proof.Machine

/-- The address `nnn`, zero-extended to 16 bits (R93). -/
def addrOperand (nnn : Addr12) : Word := nnn.setWidth 16

/-- A byte zero-extended to 16 bits: `zext_16(V[x])` (R172, spec/40_flow.md R124). -/
def zext16 (b : Byte) : Word := b.setWidth 16

/-- A key code zero-extended to a byte: `zext_8(k)` (spec/44_timers_keys.md R207). -/
def zext8 (k : Nibble) : Byte := k.setWidth 8

/-- The effective address of the k-th byte of a data access, I + k on natural numbers without wrap (R170). -/
def effAddr (s : State) (k : Nat) : Nat := s.i.toNat + k

/-- The operand of a shift under SHIFT_SOURCE (spec/41_alu.md R149; D2). -/
def shiftOperand (src : ShiftSource) (x y : Reg) (s : State) : Byte :=
  match src with
  | .vx => s.reg x
  | .vy => s.reg y

/-- The register `Bnnn` adds, under JUMP_OFFSET_REG (spec/40_flow.md R124; D7); under the other value it is the one
bits 11–8 name. Log entry 7. -/
def jumpOffset (which : JumpOffsetReg) (nnn : Addr12) (s : State) : Byte :=
  match which with
  | .v0 => s.reg 0
  | .vx => s.reg (nnn.extractLsb' 8 4)

/-- The difference a − b under SUB_RESULT: modulo 256, or 0 when it borrows (R148; D4). -/
def difference (how : SubResult) (a b : Byte) : Byte :=
  match how with
  | .wrapped => a - b
  | .clamped => if b.toNat ≤ a.toNat then a - b else 0

/-- The bytes of `V[0]` … `V[x]` in ascending order (spec/42_index_memory.md R175). -/
def regBytes (x : Reg) (s : State) : List Byte :=
  (List.range (x.toNat + 1)).map (fun k => s.reg (BitVec.ofNat 4 k))

/-- The three decimal digits of a byte, hundreds first (R174). -/
def bcdDigits (b : Byte) : List Byte :=
  [BitVec.ofNat 8 (b.toNat / 100), BitVec.ofNat 8 (b.toNat / 10 % 10), BitVec.ofNat 8 (b.toNat % 10)]

/-- The address of the glyph of a hexadecimal digit: FONT_BASE + 5 · d (R173). -/
def glyphAddr (d : Byte) : Word := params.fontBase + 5 * zext16 d

/-- I after a completed `Fx55` or `Fx65`, under MEMOPS_INC_I (R175, R176; D6). -/
def indexAfter (how : MemopsIncI) (x : Reg) (i : Word) : Word :=
  match how with
  | .unchanged => i
  | .byX => i + x.setWidth 16
  | .byXPlusOne => i + x.setWidth 16 + 1

/-- The update of I that follows a run of accesses; a run that was refused leaves I alone. -/
def bumpIndex (how : MemopsIncI) (x : Reg) : State × Option Nat → State × Option Nat
  | (s, none) => ({ s with i := indexAfter how x s.i }, none)
  | (s, some a) => (s, some a)

end Sys2Proof.Machine
end

