-- ==== Sys2Proof/Machine/Alu.lean ====
section
/-! DEFINITION. Register load, arithmetic, logic, shift and random instructions (spec/41_alu.md). Operands are read before
any write (R153). None can raise a fault. -/

namespace Sys2Proof.Machine

/-- LD `6xkk` (R141). -/
def execLdImm (x : Reg) (kk : Byte) (s : State) : Result := .next (s.setReg x kk)

/-- ADD `7xkk` (R142): modulo 256, no flag. -/
def execAddImm (x : Reg) (kk : Byte) (s : State) : Result := .next (s.setReg x (s.reg x + kk))

/-- LD `8xy0` (R143). -/
def execLdReg (x y : Reg) (s : State) : Result := .next (s.setReg x (s.reg y))

/-- OR `8xy1` (R144). -/
def execOrReg (x y : Reg) (s : State) : Result :=
  .next (writeLogic params.logicResetsVf params.flagOrder x (s.reg x ||| s.reg y) s)

/-- AND `8xy2` (R145). -/
def execAndReg (x y : Reg) (s : State) : Result :=
  .next (writeLogic params.logicResetsVf params.flagOrder x (s.reg x &&& s.reg y) s)

/-- XOR `8xy3` (R146). -/
def execXorReg (x y : Reg) (s : State) : Result :=
  .next (writeLogic params.logicResetsVf params.flagOrder x (s.reg x ^^^ s.reg y) s)

/-- ADD `8xy4` (R147): VF is the carry-out. -/
def execAddReg (x y : Reg) (s : State) : Result :=
  .next (writeFlagged params.flagOrder x (s.reg x + s.reg y) (carryOut (s.reg x) (s.reg y)) s)

/-- SUB `8xy5` (R148): V[x] − V[y], VF is no-borrow. -/
def execSub (x y : Reg) (s : State) : Result :=
  .next (writeFlagged params.flagOrder x (difference params.subResult (s.reg x) (s.reg y))
    (noBorrow (s.reg x) (s.reg y)) s)

/-- SUBN `8xy7` (R150): V[y] − V[x], VF is no-borrow. -/
def execSubn (x y : Reg) (s : State) : Result :=
  .next (writeFlagged params.flagOrder x (difference params.subResult (s.reg y) (s.reg x))
    (noBorrow (s.reg y) (s.reg x)) s)

/-- SHR `8xy6` (R149): VF is the old bit 0. -/
def execShr (x y : Reg) (s : State) : Result :=
  let a := shiftOperand params.shiftSource x y s
  .next (writeFlagged params.flagOrder x (a >>> 1) (shiftedOutRight a) s)

/-- SHL `8xyE` (R151): VF is the old bit 7. -/
def execShl (x y : Reg) (s : State) : Result :=
  let a := shiftOperand params.shiftSource x y s
  .next (writeFlagged params.flagOrder x (a <<< 1) (shiftedOutLeft a) s)

/-- RND `Cxkk` (R152): the random byte is a free value (R155). -/
def execRnd (x : Reg) (kk : Byte) (s : State) : Result :=
  .next (s.setReg x (Config.randByte s.instant &&& kk))

end Sys2Proof.Machine
end

