-- ==== Sys2Proof/Machine/Display.lean ====
section
/-! DEFINITION. Display instructions and the XOR blit with wrap and collision (spec/43_display.md). -/

namespace Sys2Proof.Machine

/-- `FB[row][col]` (spec/10_state.md R32). -/
def cell (fb : FrameBuffer) (row : Fin 32) (col : Fin 64) : Bool := (fb[row.val])[col.val]

/-- `FB[row][col] <- b`. -/
def setCell (fb : FrameBuffer) (row : Fin 32) (col : Fin 64) (b : Bool) : FrameBuffer :=
  fb.set row.val ((fb[row.val]).set col.val b)

/-- XOR one sprite bit into one cell; the flag records a cell that goes from set to unset (R192). -/
def xorCell (row : Fin 32) (col : Fin 64) (bit : Bool) (d : FrameBuffer × Bool) : FrameBuffer × Bool :=
  let old := cell d.1 row col
  let new := old ^^ bit
  (setCell d.1 row col new, d.2 || (old && !new))

/-- One sprite byte into one row: column c = 0 is the most significant bit, and each column wraps on its own (R192). -/
def blitByte (cx : Nat) (row : Fin 32) (b : Byte) (d : FrameBuffer × Bool) : FrameBuffer × Bool :=
  (List.range 8).foldl (fun d c => xorCell row (Fin.ofNat 64 (cx + c)) (b.getLsbD (7 - c)) d) d

/-- The sprite bytes from row offset r on (R192). -/
def blitFrom (cx cy : Nat) : Nat → List Byte → FrameBuffer × Bool → FrameBuffer × Bool
  | _, [], d => d
  | r, b :: bs, d => blitFrom cx cy (r + 1) bs (blitByte cx (Fin.ofNat 32 (cy + r)) b d)

/-- `Blit(cx, cy, s)` (R192): the new framebuffer and whether any collision occurred. -/
def blit (cx cy : Nat) (sprite : List Byte) (fb : FrameBuffer) : FrameBuffer × Bool :=
  blitFrom cx cy 0 sprite (fb, false)

/-- Blit at the coordinates and write the collision to VF (R191). -/
def drawSprite (cx cy : Byte) (sprite : List Byte) (s : State) : State :=
  let d := blit cx.toNat cy.toNat sprite s.fb
  { s with fb := d.1 }.setReg Config.flagReg (flagByte d.2)

/-- CLS `00E0` (R190): every cell unset. Field x is ignored (spec/30_encoding.md R99). -/
def execCls (_x : Nibble) (s : State) : Result := .next { s with fb := FrameBuffer.blank }

/-- DRW `Dxyn` (R191): coordinates are the values of V[x] and V[y] before VF is written; all n bytes are read from I on
before any cell changes. -/
def execDrw (x y : Reg) (n : Nibble) (s : State) : Result :=
  match readBytes s (effAddr s 0) n.toNat with
  | .error a => .next (raiseAt .memoryOutOfRange (some a) (encode (.drw x y n)) s)
  | .ok sprite => .next (drawSprite (s.reg x) (s.reg y) sprite s)

end Sys2Proof.Machine
end

