-- ==== Sys2Proof/Machine/Flow.lean ====
section
/-! DEFINITION. Control transfer: return, jump, call, jump with offset, conditional skips (spec/40_flow.md). On entry pc is
the address of the instruction plus 2 (R120). -/

namespace Sys2Proof.Machine

/-- RET `00EE` (R121): pop and jump; StackUnderflow when the stack is empty. -/
def execRet (x : Nibble) (s : State) : Result :=
  match pop s with
  | none => .next (raiseAt .stackUnderflow none (encode (.ret x)) s)
  | some (a, t) => .next (jumpTo a t)

/-- JP `1nnn` (R122). -/
def execJp (nnn : Addr12) (s : State) : Result := .next (jumpTo (addrOperand nnn) s)

/-- CALL `2nnn` (R123): push the address of the next instruction and jump; StackOverflow when 16 entries are held. -/
def execCall (nnn : Addr12) (s : State) : Result :=
  match push s.pc s with
  | none => .next (raiseAt .stackOverflow none (encode (.call nnn)) s)
  | some t => .next (jumpTo (addrOperand nnn) t)

/-- JP V0 `Bnnn` (R124): the sum is not reduced modulo 4096. -/
def execJpV0 (nnn : Addr12) (s : State) : Result :=
  .next (jumpTo (addrOperand nnn + zext16 (jumpOffset params.jumpOffsetReg nnn s)) s)

/-- SE `3xkk` (R125). -/
def execSeImm (x : Reg) (kk : Byte) (s : State) : Result := .next (skipIf (s.reg x == kk) s)

/-- SNE `4xkk` (R126). -/
def execSneImm (x : Reg) (kk : Byte) (s : State) : Result := .next (skipIf (s.reg x != kk) s)

/-- SE `5xy0` (R127). -/
def execSeReg (x y : Reg) (s : State) : Result := .next (skipIf (s.reg x == s.reg y) s)

/-- SNE `9xy0` (R128). -/
def execSneReg (x y : Reg) (s : State) : Result := .next (skipIf (s.reg x != s.reg y) s)

end Sys2Proof.Machine
end

