-- ==== Sys2Proof/Machine/Index.lean ====
section
/-! DEFINITION. Index register and memory transfer instructions (spec/42_index_memory.md). I is not changed by an access,
and every access is one byte through the guard (R170). -/

namespace Sys2Proof.Machine

/-- LD I `Annn` (R171): the value is not checked. -/
def execLdI (nnn : Addr12) (s : State) : Result := .next { s with i := addrOperand nnn }

/-- ADD I `Fx1E` (R172): modulo 65536; VF is left alone, unless ADD_I_FLAG. -/
def execAddIVx (x : Reg) (s : State) : Result :=
  let t : State := { s with i := s.i + zext16 (s.reg x) }
  .next (if params.addIFlag then t.setReg Config.flagReg (flagByte (indexCarry s.i (s.reg x))) else t)

/-- LD F `Fx29` (R173): the address of the glyph of V[x]; above digit 15 the new I is a free value (U3). -/
def execLdFVx (x : Reg) (s : State) : Result :=
  let d := s.reg x
  .next { s with i := if d.toNat ≤ 15 then glyphAddr d else Config.fontDraw s.instant }

/-- LD B `Fx33` (R174): store the three decimal digits at I, I+1, I+2. -/
def execLdBVx (x : Reg) (s : State) : Result :=
  .next (finishRun (.ldBVx x) (storeBytes (effAddr s 0) (bcdDigits (s.reg x)) s))

/-- LD [I] `Fx55` (R175): store `V[0]` … `V[x]` at I … I+x. -/
def execLdMemVx (x : Reg) (s : State) : Result :=
  .next (finishRun (.ldMemVx x) (bumpIndex params.memopsIncI x (storeBytes (effAddr s 0) (regBytes x s) s)))

/-- LD Vx `Fx65` (R176): load `V[0]` … `V[x]` from I … I+x. -/
def execLdVxMem (x : Reg) (s : State) : Result :=
  .next (finishRun (.ldVxMem x) (bumpIndex params.memopsIncI x (loadRegs (effAddr s 0) 0 (x.toNat + 1) s)))

end Sys2Proof.Machine
end

