-- ==== Sys2Proof/Machine/Timers.lean ====
section
/-! DEFINITION. Timer access, keyboard instructions and the wait for a key (spec/44_timers_keys.md), and the timer agents
(spec/60_exceptions.md R240 to R242). -/

namespace Sys2Proof.Machine

/-! ## The keyboard ports, read at the instant of the step (spec/10_state.md R37) -/

/-- `KeyHeld(k)` (R200). -/
def keyHeldNow (k : Byte) (s : State) : Bool := Config.keyHeld s.instant k

/-- What one poll of `KeyWait()` does for register x (R207, R208; spec/10_state.md R21): a reported key is loaded and the
phase is RUN; with none the phase is WAIT_KEY(x). -/
def pollKey (x : Reg) (s : State) : State :=
  match Config.keyWait s.instant with
  | some k => { s.setReg x (zext8 k) with phase := .run }
  | none => { s with phase := .waitKey x }

/-! ## Instructions -/

/-- LD Vx, DT `Fx07` (R202). -/
def execLdVxDt (x : Reg) (s : State) : Result := .next (s.setReg x s.dt)

/-- LD DT, Vx `Fx15` (R203). -/
def execLdDtVx (x : Reg) (s : State) : Result := .next { s with dt := s.reg x }

/-- LD ST, Vx `Fx18` (R204). -/
def execLdStVx (x : Reg) (s : State) : Result := .next { s with st := s.reg x }

/-- SKP `Ex9E` (R205). -/
def execSkp (x : Reg) (s : State) : Result := .next (skipIf (keyHeldNow (s.reg x) s) s)

/-- SKNP `ExA1` (R206). -/
def execSknp (x : Reg) (s : State) : Result := .next (skipIf (!keyHeldNow (s.reg x) s) s)

/-- LD Vx, K `Fx0A` (R207): the first poll, made in the step that fetched the instruction. -/
def execLdVxK (x : Reg) (s : State) : Result := .next (pollKey x s)

/-! ## The timer agents -/

/-- One tick of a timer cell: down by 1, floor 0, only while its run bit is 1 (R240; spec/10_state.md R41). -/
def tickCell (running : Bool) (v : Byte) : Byte := if running && v != 0 then v - 1 else v

/-- `tick_dt` (R240): touches nothing but DT. -/
def tickDt (s : State) : State := { s with dt := tickCell s.dtRun s.dt }

/-- `tick_st` (R240): touches nothing but ST. -/
def tickSt (s : State) : State := { s with st := tickCell s.stRun s.st }

/-- A timer cell after `k` ticks; where a tick changes nothing, any number of them changes nothing. -/
def afterTicks (running : Bool) (k : Nat) (v : Byte) : Byte :=
  if tickCell running v = v then v else (tickCell running)^[k] v

/-- What happens between one core step and the next: free numbers of delay and sound ticks (R20, R241), and the instant
advances, so that the next step draws its inputs afresh. Log entries 1 and 3. -/
def elapse (s : State) : State :=
  { s with
    dt := afterTicks s.dtRun (Config.dtTicks s.instant) s.dt
    st := afterTicks s.stRun (Config.stTicks s.instant) s.st
    instant := s.instant + 1 }

end Sys2Proof.Machine
end

