-- ==== Sys2Proof/Machine/Fetch.lean ====
section
/-! DEFINITION. Instruction fetch (spec/20_memory.md R68), executing an Invalid word (spec/60_exceptions.md R225), and placing
an instruction where the next fetch reads it. -/

namespace Sys2Proof.Machine

/-- `Fetch()` (R68): two guarded reads at pc and pc + 1, big-endian, pc advanced by 2; the error is the refused address,
and then pc is not advanced. -/
def fetch (s : State) : Except Nat (Word × State) :=
  match memRead s.pc.toNat s with
  | none => .error s.pc.toNat
  | some hi =>
    match memRead (s.pc.toNat + 1) s with
    | none => .error (s.pc.toNat + 1)
    | some lo => .ok (wordOfBytes hi lo, { s with pc := s.pc + 2 })

/-- A fetch that was refused: MemoryOutOfRange with no word, pc unchanged (R68; spec/60_exceptions.md R223, R228). -/
def fetchFault (a : Nat) (s : State) : State := raise .memoryOutOfRange (some a) none s.pc s

/-- Executing `Invalid(w)`: InvalidInstruction, or nothing under LENIENT_INVALID (spec/60_exceptions.md R225; D22). -/
def execInvalid (lenient : Bool) (w : Word) (s : State) : State :=
  if lenient then s else raiseAt .invalidInstruction none w s

/-- Whether `Fetch` succeeds at a pc: "Fetchable values of pc are exactly 512 to 4094" (R68). -/
def fetchable (pc : Word) : Bool := decide (512 ≤ pc.toNat) && decide (pc.toNat ≤ 4094)

/-- Write a word's bytes past the guard, the first at the lowest address. -/
def placeBytes : Nat → List Byte → State → State
  | _, [], s => s
  | a, b :: bs, s => placeBytes (a + 1) bs { s with mem := s.mem.write a b }

/-- The state made ready to fetch: phase RUN with no fault recorded, and pc at the load address where it could not be
fetched from. A state already running at a fetchable pc is unchanged. -/
def readyToFetch (s : State) : State :=
  { s with
    phase := .run
    faultRecord := if s.phase = .run then s.faultRecord else none
    pc := if fetchable s.pc then s.pc else BitVec.ofNat 16 Config.loadBase }

/-- The body of `State.withFetchWord`. -/
def placeFetchWord (s : State) (nbits w : Nat) : State :=
  let t := readyToFetch s
  placeBytes t.pc.toNat (tableBytes nbits w) t

end Sys2Proof.Machine
end

