-- ==== Sys2Proof/Machine/CoreStep.lean ====
section
/-! DEFINITION. One step of the core agent: what it does in each control phase (spec/10_state.md R21). -/

namespace Sys2Proof.Machine

/-- One step of the core agent, by control phase (R21). -/
def coreStep (s : State) : Host.Outcome State Fault Refusal :=
  match s.phase with
  | .fault => .next s
  | .waitKey x => .next (pollKey x s)
  | .run =>
    match fetch s with
    | .error a => .next (fetchFault a s)
    | .ok (w, t) =>
      match decode w with
      | .invalid w' => .next (execInvalid params.lenientInvalid w' t)
      | .instr i => exec i t

end Sys2Proof.Machine
end

