-- ==== Sys2Proof/Machine/Step.lean ====
section
/-! DEFINITION. One step (spec/10_state.md R20, R21), and placing an instruction for the next fetch. -/

namespace Sys2Proof.Machine

/-- One step of the machine: a core step, then whatever ticks fall before the next one (R20, R241). -/
def step (s : State) : Host.Outcome State Fault Refusal :=
  match coreStep s with
  | .next t => .next (elapse t)
  | .fault f => .fault f
  | .refused r => .refused r

/-- `s` with the instruction of a table word placed where `step` fetches next. Log entry 15. -/
def State.withFetchWord (s : State) (nbits w : Nat) : State := placeFetchWord s nbits w

end Sys2Proof.Machine
end

