-- ==== Sys2Proof/Machine/HostPorts.lean ====
section
/-! DEFINITION. The host's operations on the core and what it reads back (spec/60_exceptions.md R245; spec/70_reset_and_hazards.md
R260, R264): events of the host, not moves of `step`. Log entries 14 to 16. -/

namespace Sys2Proof.Machine

/-- Reset, in any phase (R260): every piece of the spec's state at its reset value. The model's own count of steps goes on,
so the inputs after a reset are fresh ones. -/
def hostReset (s : State) : State := { State.reset with instant := s.instant }

/-- `load_font()` (spec/20_memory.md R71): writes FONT_TABLE at FONT_BASE past the guard. -/
def loadFont (s : State) : State := placeBytes params.fontBase.toNat params.fontTable s

/-- `load_program(bytes)` (spec/20_memory.md R72): through the guard from 512 on; a byte for address 4096 raises
MemoryOutOfRange, and the bytes before it stay stored. -/
def loadProgram (bytes : List Byte) (s : State) : State :=
  match storeBytes Config.loadBase bytes s with
  | (t, none) => t
  | (t, some a) => raise .memoryOutOfRange (some a) none s.pc t

/-- `start()` on the delay timer (spec/10_state.md R41). -/
def startDt (s : State) : State := { s with dtRun := true }

/-- `start()` on the sound timer (spec/10_state.md R41). -/
def startSt (s : State) : State := { s with stRun := true }

/-- The boot order of R264: reset, font, program, both timers started. Core steps follow. -/
def boot (bytes : List Byte) (s : State) : State := startSt (startDt (loadProgram bytes (loadFont (hostReset s))))

/-- `snapshot()` (spec/10_state.md R33): all 2048 cells; changes no state. -/
def snapshot (s : State) : FrameBuffer := s.fb

/-- The output `sound_on = (ST ≠ 0)` (spec/10_state.md R31). -/
def soundOn (s : State) : Bool := s.st != 0

/-- The fault report: the record, "meaningful only in phase FAULT" (spec/10_state.md R36). -/
def faultReport (s : State) : Option FaultRecord := if s.phase = .fault then s.faultRecord else none

/-- `fault_cause` as the host reads it: the code of the recorded cause (spec/60_exceptions.md R222, R226). -/
def faultCode (s : State) : Option Nat := (faultReport s).map (fun r => causeCode r.cause)

end Sys2Proof.Machine
end

