-- ==== Sys2Proof/Safety.lean ====
section
/-! DEFINITION. The terms claims use: what a state holds where a rule looks, what may differ between two states, what a
stopped machine looks like, and the invariant of the machine. -/

namespace Sys2Proof.Machine

/-! ## Addresses (spec/20_memory.md R62) -/

/-- The guard allows the address: `512 ≤ addr ≤ 4095`. -/
def allowed (a : Nat) : Prop := 512 ≤ a ∧ a ≤ 4095

/-- The guard allows the first `n` addresses from I on. -/
def blockAllowed (s : State) (n : Nat) : Prop := ∀ j < n, allowed (s.i.toNat + j)

/-- Of the `n` addresses from I on, I + k is the first the guard refuses. -/
def firstRefused (s : State) (n k : Nat) : Prop :=
  k < n ∧ (∀ j < k, allowed (s.i.toNat + j)) ∧ ¬ allowed (s.i.toNat + k)

/-- The word `{MEM[pc], MEM[pc+1]}` (R65). -/
def wordAtPc (s : State) : Word := wordOfBytes (s.peek s.pc.toNat) (s.peek (s.pc.toNat + 1))

/-! ## Frames: `t` is `s` but for the named parts, so every byte of memory and every other register is as in `s` -/

/-- `t` differs from `s` in pc alone. -/
def onlyPc (s t : State) : Prop := t = { s with pc := t.pc }

/-- `t` differs from `s` in the general registers alone. -/
def onlyRegs (s t : State) : Prop := t = { s with v := t.v }

/-- `t` differs from `s` in memory alone. -/
def onlyMem (s t : State) : Prop := t = { s with mem := t.mem }

/-- Every general register but V[x] reads in `t` as in `s`. -/
def regsBut (x : Reg) (s t : State) : Prop := ∀ r, r ≠ x → t.reg r = s.reg r

/-- Every general register but V[x] and VF reads in `t` as in `s`. -/
def regsButFlag (x : Reg) (s t : State) : Prop := ∀ r, r ≠ x → r ≠ 15 → t.reg r = s.reg r

/-- `t` is `s` stopped with a fault record (spec/60_exceptions.md R221): nothing else differs. -/
def stoppedWith (r : FaultRecord) (s t : State) : Prop := t = { s with phase := .fault, faultRecord := some r }

/-- The record of a fault raised in the execute stage by the word `w` (R226): pc is then the instruction's address + 2. -/
def recordAt (cause : FaultCause) (addr : Option (BitVec 17)) (w : Word) (s : State) : FaultRecord :=
  { cause := cause, addr := addr, word := some w, pc := s.pc - 2 }

/-! ## Pixels (spec/43_display.md R192) -/

/-- A sprite drawn at (cx, cy) has a set bit on the cell: for some row offset r and column offset c (0 the most significant
bit), each wrapping on its own. -/
def covers (cx cy : Nat) (sprite : List Byte) (row : Fin 32) (col : Fin 64) : Prop :=
  ∃ (r : Nat) (hr : r < sprite.length) (c : Nat), c < 8 ∧
    row.val = (cy + r) % 32 ∧ col.val = (cx + c) % 64 ∧ (sprite[r]).getLsbD (7 - c) = true

/-- The `n` bytes from I on. -/
def spriteAt (s : State) (n : Nat) : List Byte := (List.range n).map (fun r => s.peek (s.i.toNat + r))

/-! ## Which instruction writes what -/

/-- The general registers an instruction may write: the column "writes" of spec/10_state.md R24, the flag included. -/
def writesReg (i : Instr) (r : Reg) : Prop :=
  match i with
  | .ldImm x _ | .addImm x _ | .ldReg x _ | .orReg x _ | .andReg x _ | .xorReg x _ | .rnd x _ | .ldVxDt x | .ldVxK x => r = x
  | .addReg x _ | .sub x _ | .subn x _ | .shr x _ | .shl x _ => r = x ∨ r = 15
  | .drw _ _ _ => r = 15
  | .ldVxMem x => r.toNat ≤ x.toNat
  | .cls _ | .ret _ | .jp _ | .call _ | .seImm _ _ | .sneImm _ _ | .seReg _ _ | .sneReg _ _ | .ldI _ | .jpV0 _
  | .skp _ | .sknp _ | .ldDtVx _ | .ldStVx _ | .addIVx _ | .ldFVx _ | .ldBVx _ | .ldMemVx _ => False

/-- The instructions that write the framebuffer (spec/10_state.md R32). -/
def writesDisplay (i : Instr) : Prop := (∃ x, i = .cls x) ∨ (∃ x y n, i = .drw x y n)

/-- The instructions that change the stack (R27). -/
def changesStack (i : Instr) : Prop := (∃ x, i = .ret x) ∨ (∃ nnn, i = .call nnn)

/-- The instructions that write I (R25). -/
def writesIndex (i : Instr) : Prop := (∃ nnn, i = .ldI nnn) ∨ (∃ x, i = .addIVx x) ∨ (∃ x, i = .ldFVx x)

/-- The instructions that replace pc, and the skips (R26). -/
def writesPc (i : Instr) : Prop :=
  (∃ x, i = .ret x) ∨ (∃ nnn, i = .jp nnn) ∨ (∃ nnn, i = .call nnn) ∨ (∃ nnn, i = .jpV0 nnn) ∨
  (∃ x kk, i = .seImm x kk) ∨ (∃ x kk, i = .sneImm x kk) ∨ (∃ x y, i = .seReg x y) ∨ (∃ x y, i = .sneReg x y) ∨
  (∃ x, i = .skp x) ∨ (∃ x, i = .sknp x)

/-- The cause an instruction can raise, if any (spec/60_exceptions.md R222, R227). -/
def mayRaise (i : Instr) (c : FaultCause) : Prop :=
  match i with
  | .call _ => c = .stackOverflow
  | .ret _ => c = .stackUnderflow
  | .drw _ _ _ | .ldBVx _ | .ldMemVx _ | .ldVxMem _ => c = .memoryOutOfRange
  | .cls _ | .jp _ | .seImm _ _ | .sneImm _ _ | .seReg _ _ | .ldImm _ _ | .addImm _ _ | .ldReg _ _ | .orReg _ _
  | .andReg _ _ | .xorReg _ _ | .addReg _ _ | .sub _ _ | .shr _ _ | .subn _ _ | .shl _ _ | .sneReg _ _ | .ldI _
  | .jpV0 _ | .rnd _ _ | .skp _ | .sknp _ | .ldVxDt _ | .ldVxK _ | .ldDtVx _ | .ldStVx _ | .addIVx _ | .ldFVx _ => False

/-! ## The invariant -/

/-- The machine has not stopped: a safe run is one all of whose states are so (spec/60_exceptions.md R229). -/
def notStopped (s : State) : Prop := s.phase ≠ .fault

/-- What every state of a run satisfies: memory in its canonical form inside the 4096 bytes, at most sixteen stack
entries (R27), and a fault record exactly in phase FAULT (R35, R36). -/
def Inv (s : State) : Prop :=
  s.mem.wf = true ∧ s.sp ≤ 16 ∧ (s.phase = .fault ↔ s.faultRecord.isSome = true)

end Sys2Proof.Machine
end

