-- ==== Sys2Proof/Certificates/Slice0/Obligations.lean ====
section
/-! DEFINITION. The statements for the provers. A form written as `wordXY 0x8 x y 0x4` is the pattern `8xy4` of
spec/30_encoding.md R98 with its fields. A statement of the shape `∃ t, exec i s = .next t ∧ …` says that the instruction
completes and what its next state holds; the frames are those of Safety.lean, and each makes every byte of memory not named
read as before. -/

open Sys2Proof Sys2Proof.Machine

/-! ## Encoding -/

/-- Words written out from R98, and words the spec calls Invalid, decode as spec/95_test_vectors.md section 2.1 lists. That
0x0FEE is RET rests on decision D10, that 0x0123 and 0x912F are Invalid on D11 (log entry 6); RET carries the ignored field x
by the model's choice (log entry 10). -/
def Obligations.DecodeReadsSpecWords : Prop :=
  decode 0x00E0 = .instr (.cls 0) ∧ decode 0x0FEE = .instr (.ret 15) ∧ decode 0x0000 = .invalid 0x0000 ∧
  decode 0x0123 = .invalid 0x0123 ∧ decode 0x1ABC = .instr (.jp 0xABC) ∧ decode 0x3A7F = .instr (.seImm 10 0x7F) ∧
  decode 0x5AB1 = .invalid 0x5AB1 ∧ decode 0x8AB7 = .instr (.subn 10 11) ∧ decode 0x8ABE = .instr (.shl 10 11) ∧
  decode 0x912F = .invalid 0x912F ∧ decode 0xA250 = .instr (.ldI 0x250) ∧ decode 0xD125 = .instr (.drw 1 2 5) ∧
  decode 0xE1A1 = .instr (.sknp 1) ∧ decode 0xF155 = .instr (.ldMemVx 1) ∧ decode 0xF175 = .invalid 0xF175

/-- Decoding the word of a well-formed instruction gives it back, every operand at every value (R92, R93, R98). For
CLS and RET with a nonzero field x it rests on decision D10 (log entry 6), and on the field being carried (log entry 10). -/
def Obligations.DecodeOfEncodeIsIdentity : Prop :=
  ∀ i : Instr, wellFormed i = true → decode (encode i) = .instr i

/-- A word that decodes to an instruction is the word of that instruction, which is well-formed: no bit is dropped. Of CLS and
RET with a nonzero field x this holds only because the constructors carry the field the spec ignores, the model's choice
(log entry 10); the spec's own decoded CLS and RET have no operand. -/
def Obligations.EncodeOfDecodeIsIdentity : Prop :=
  ∀ (w : Word) (i : Instr), decode w = .instr i → encode i = w ∧ wellFormed i = true

/-- A word that selects a row of R98 decodes to an instruction of that row, and a word that selects no row decodes to
Invalid carrying the word (R94, R96, R98; the masks of CLS and RET by decision D10, log entry 6). -/
def Obligations.DecodeFollowsOpcodeRows : Prop :=
  ∀ w : Word,
    (∀ r ∈ opcodeRows, w &&& r.mask = r.pattern → ∃ i, decode w = .instr i ∧ mnemonic i = r.name) ∧
    ((∀ r ∈ opcodeRows, w &&& r.mask ≠ r.pattern) → decode w = .invalid w)

/-- The words that decode to Invalid, completely: the table of R100. The row of head 0 rests on decision D10 (field x is not
compared; log entry 6) and on D11 (`0nnn`), the row of head 9 on D11; the other rows are the source's own dispatch. -/
def Obligations.InvalidWordsAreThoseOfTheTable : Prop :=
  ∀ w : Word, decode w = .invalid w ↔
    (fieldHead w = 0x0 ∧ fieldKK w ≠ 0xE0 ∧ fieldKK w ≠ 0xEE) ∨
    (fieldHead w = 0x5 ∧ fieldN w ≠ 0) ∨
    (fieldHead w = 0x8 ∧ fieldN w ∈ [0x8#4, 0x9#4, 0xA#4, 0xB#4, 0xC#4, 0xD#4, 0xF#4]) ∨
    (fieldHead w = 0x9 ∧ fieldN w ≠ 0) ∨
    (fieldHead w = 0xE ∧ fieldKK w ≠ 0x9E ∧ fieldKK w ≠ 0xA1) ∨
    (fieldHead w = 0xF ∧
      fieldKK w ∉ [0x07#8, 0x0A#8, 0x15#8, 0x18#8, 0x1E#8, 0x29#8, 0x33#8, 0x55#8, 0x65#8])

/-! ## Reset and boot -/

/-- What reset leaves (R40, R260; the values of I and the framebuffer are the spec's decisions D15 and D16), at power-on
and after a reset in any state. -/
def Obligations.ResetLeavesSpecValues : Prop :=
  ∀ t : State, (t = State.reset ∨ ∃ s, t = hostReset s) →
    (∀ r, t.reg r = 0) ∧ t.i = 0 ∧ t.pc = 512 ∧ t.sp = 0 ∧ t.dt = 0 ∧ t.st = 0 ∧ t.dtRun = false ∧ t.stRun = false ∧
    (∀ row col, cell t.fb row col = false) ∧ (∀ a, t.peek a = 0) ∧ t.phase = .run ∧ t.faultRecord = none

/-- After the boot of a program that fits (the column "after boot" of R40; R262, R264; decisions D15 to D17, D24 and D29, log
entry 6): both run bits are 1, memory holds the font at 0x50, the program at 512 and 0 elsewhere, every other piece of state
is as after reset, and execution begins at 512: the first fetch reads the first two bytes of the program, a missing one as
0. -/
def Obligations.BootFetchesFirstProgramWord : Prop :=
  ∀ (s : State) (bytes : List Byte), bytes.length ≤ 3584 →
    boot bytes s = { hostReset s with dtRun := true, stRun := true, mem := (boot bytes s).mem } ∧
    (boot bytes s).phase = .run ∧ (boot bytes s).pc = 512 ∧
    fetch (boot bytes s) = .ok (wordOfBytes (bytes.getD 0 0) (bytes.getD 1 0), { boot bytes s with pc := 514 }) ∧
    (∀ (k : Nat) (hk : k < fontBytes.length), (boot bytes s).peek (0x50 + k) = fontBytes[k]) ∧
    (∀ (k : Nat) (hk : k < bytes.length), (boot bytes s).peek (512 + k) = bytes[k]) ∧
    (∀ a, (a < 0x50 ∨ 0x9F < a) → (∀ k < bytes.length, a ≠ 512 + k) → (boot bytes s).peek a = 0)

/-- Loading a program (R72, decision D30): a program that fits is stored from 512 on and nothing else changes; of a longer
one the first 3584 bytes are stored and the core stops at address 4096 with no word. The recorded pc is the model's choice
(log entry 13). -/
def Obligations.LoadProgramStoresOrStops : Prop :=
  ∀ (s : State) (bytes : List Byte),
    (bytes.length ≤ 3584 → onlyMem s (loadProgram bytes s) ∧
      (∀ (k : Nat) (hk : k < bytes.length), (loadProgram bytes s).peek (512 + k) = bytes[k]) ∧
      (∀ a, (∀ k < bytes.length, a ≠ 512 + k) → (loadProgram bytes s).peek a = s.peek a)) ∧
    (3584 < bytes.length →
      stoppedWith ⟨.memoryOutOfRange, some 4096, none, s.pc⟩ { s with mem := (loadProgram bytes s).mem } (loadProgram bytes s) ∧
      (∀ (k : Nat) (hk : k < bytes.length), k < 3584 → (loadProgram bytes s).peek (512 + k) = bytes[k]) ∧
      (∀ a, ¬ allowed a → (loadProgram bytes s).peek a = s.peek a))

/-- Loading the font (R71, R74; decisions D17 and D29): the 80 bytes lie at 0x50 … 0x9F, glyph d at 0x50 + 5·d, and nothing
else changes. -/
def Obligations.LoadFontWritesReservedTable : Prop :=
  ∀ s : State, onlyMem s (loadFont s) ∧ fontBytes.length = 80 ∧
    (∀ (k : Nat) (hk : k < fontBytes.length), (loadFont s).peek (0x50 + k) = fontBytes[k]) ∧
    (∀ a, a < 0x50 ∨ 0x9F < a → (loadFont s).peek a = s.peek a)

/-! ## Memory and fetch -/

/-- The guard and the two primitives (R62 to R64): a refused access changes nothing, an allowed read gives the cell, an
allowed write changes that one cell. -/
def Obligations.GuardedAccessReadsAndWritesOneCell : Prop :=
  ∀ (s : State) (a : Nat) (v : Byte),
    (¬ allowed a → memRead a s = none ∧ memWrite a v s = none) ∧
    (allowed a → memRead a s = some (s.peek a) ∧
      ∃ t, memWrite a v s = some t ∧ onlyMem s t ∧ t.peek a = v ∧ ∀ b, b ≠ a → t.peek b = s.peek b)

/-- Fetch (R65, R68; decision D18): big-endian at pc and pc + 1 with pc advanced by 2; refused at pc, or at pc + 1 when pc
is 4095. -/
def Obligations.FetchIsBigEndianAndGuarded : Prop :=
  ∀ s : State,
    (512 ≤ s.pc.toNat → s.pc.toNat ≤ 4094 →
      ∃ t, fetch s = .ok (wordAtPc s, t) ∧ onlyPc s t ∧ t.pc.toNat = s.pc.toNat + 2 ∧
        (wordAtPc s).toNat = (s.peek s.pc.toNat).toNat * 256 + (s.peek (s.pc.toNat + 1)).toNat) ∧
    (s.pc.toNat < 512 ∨ 4096 ≤ s.pc.toNat → fetch s = .error s.pc.toNat) ∧
    (s.pc.toNat = 4095 → fetch s = .error 4096)

/-! ## The step -/

/-- A step in phase RUN runs the decoded instruction on the state with pc advanced by 2, then time passes (R20, R21; log
entry 1). -/
def Obligations.StepRunsDecodedInstruction : Prop :=
  ∀ (s : State) (i : Instr), s.phase = .run → 512 ≤ s.pc.toNat → s.pc.toNat ≤ 4094 → decode (wordAtPc s) = .instr i →
    step s = match exec i { s with pc := s.pc + 2 } with
      | .next t => .next (elapse t)
      | .fault f => .fault f
      | .refused r => .refused r

/-- A step whose fetch is refused stops the core with MemoryOutOfRange, no word, and pc as it was (R223, R226, R228;
decision D18). -/
def Obligations.StepStopsOnRefusedFetch : Prop :=
  ∀ s : State, s.phase = .run →
    (s.pc.toNat < 512 ∨ 4096 ≤ s.pc.toNat → ∃ t, step s = .next (elapse t) ∧
      stoppedWith ⟨.memoryOutOfRange, some (BitVec.ofNat 17 s.pc.toNat), none, s.pc⟩ s t) ∧
    (s.pc.toNat = 4095 → ∃ t, step s = .next (elapse t) ∧
      stoppedWith ⟨.memoryOutOfRange, some 4096, none, s.pc⟩ s t)

/-- A step that fetches an Invalid word stops the core with InvalidInstruction and pc advanced past the word (R225, under
the default of decision D22; the record by R226, decision D18). That the record's address is none, where R226 calls it not
meaningful, is the model's choice (log entry 11). -/
def Obligations.StepStopsOnInvalidWord : Prop :=
  ∀ s : State, s.phase = .run → 512 ≤ s.pc.toNat → s.pc.toNat ≤ 4094 → decode (wordAtPc s) = .invalid (wordAtPc s) →
    ∃ t, step s = .next (elapse t) ∧
      stoppedWith ⟨.invalidInstruction, none, some (wordAtPc s), s.pc⟩ { s with pc := s.pc + 2 } t

/-- A step in phase WAIT_KEY(x) is one poll: a reported key 0–15 is loaded and the phase is RUN again, with none nothing
changes; no instruction is fetched (R208; decision D27). -/
def Obligations.StepInWaitKeyPollsOnce : Prop :=
  ∀ (s : State) (x : Reg), s.phase = .waitKey x → ∃ t, step s = .next (elapse t) ∧
    (∀ k, Config.keyWait s.instant = some k →
      t.reg x = BitVec.ofNat 8 k.toNat ∧ regsBut x s t ∧ t = { s with v := t.v, phase := .run }) ∧
    (Config.keyWait s.instant = none → t = s)

/-- In phase FAULT a step is only the passing of time: nothing changes but what the timer agents change, a timer whose run
bit is 0 keeps its value and a running one goes no higher. FAULT is absorbing and its record is kept (R229, R240, R41;
decision D21). The count of steps is the model's own field (log entry 3). -/
def Obligations.StepInFaultChangesOnlyTimers : Prop :=
  ∀ s : State, s.phase = .fault → ∃ t, step s = .next t ∧ t = elapse s ∧
    t = { s with dt := t.dt, st := t.st, instant := t.instant } ∧
    t.dt.toNat ≤ s.dt.toNat ∧ t.st.toNat ≤ s.st.toNat ∧
    (s.dtRun = false → t.dt = s.dt) ∧ (s.stRun = false → t.st = s.st)

/-- Every step answers a next state: the four faults are states of the machine and nothing else stops it (R220, R229). -/
def Obligations.StepAlwaysAnswersNext : Prop := ∀ s : State, ∃ t, step s = .next t

/-! ## Invariants and rules of the whole machine -/

/-- The invariant holds at reset, and after the boot of a program of any length (R40, R264). -/
def Obligations.InvariantHoldsAtResetAndBoot : Prop :=
  Machine.Inv State.reset ∧ ∀ (s : State) (bytes : List Byte), Machine.Inv (boot bytes s)

/-- Every step keeps the invariant: memory in canonical form inside the 4096 bytes, at most sixteen stack entries, a fault
record exactly in phase FAULT (R27, R35, R60). -/
def Obligations.InvariantKeptByStep : Prop :=
  ∀ s t : State, Machine.Inv s → step s = .next t → Machine.Inv t

/-- No step changes a byte outside 512 … 4095: no instruction lifts the guard (R62, R75, R235). -/
def Obligations.ReservedMemoryIsNeverWritten : Prop :=
  ∀ s t : State, step s = .next t → ∀ a, ¬ allowed a → t.peek a = s.peek a

/-- Only `Fx33` and `Fx55` change a byte of memory, and only bytes from I on: three of them, or x + 1 (R69). -/
def Obligations.OnlyBlockStoresWriteMemory : Prop :=
  ∀ (i : Instr) (s t : State) (a : Nat), exec i s = .next t → t.peek a ≠ s.peek a →
    (∃ x, i = .ldBVx x ∧ s.i.toNat ≤ a ∧ a < s.i.toNat + 3) ∨
    (∃ x, i = .ldMemVx x ∧ s.i.toNat ≤ a ∧ a < s.i.toNat + x.toNat + 1)

/-- Which instructions write the framebuffer (R32), the stack (R27), I (R25), pc (R26) and the timers (R30, R31): all others
leave it as it was; and no instruction writes a run bit (R41, decision D24). That `Fx55` and `Fx65` leave I alone rests on
MEMOPS_INC_I, decision D6 (log entry 6). The clause on `instant` is about the model's own field (log entry 3). -/
def Obligations.EachUnitHasItsOwnWriters : Prop :=
  ∀ (i : Instr) (s t : State), exec i s = .next t →
    (¬ writesDisplay i → t.fb = s.fb) ∧ (¬ changesStack i → t.stack = s.stack) ∧ (¬ writesIndex i → t.i = s.i) ∧
    (¬ writesPc i → t.pc = s.pc) ∧ ((∀ x, i ≠ .ldDtVx x) → t.dt = s.dt) ∧ ((∀ x, i ≠ .ldStVx x) → t.st = s.st) ∧
    t.dtRun = s.dtRun ∧ t.stRun = s.stRun ∧ t.instant = s.instant

/-- An instruction changes no general register but those its row of R24 writes. That OR, AND and XOR leave VF alone rests on
LOGIC_RESETS_VF, decision D5, and that `Fx1E` does on ADD_I_FLAG, decision D8 (log entry 6). -/
def Obligations.RegisterWritesFollowTable : Prop :=
  ∀ (i : Instr) (s t : State) (r : Reg), exec i s = .next t → ¬ writesReg i r → t.reg r = s.reg r

/-- What the fault record of a step says (R226, R228; decisions D18 and D19; log entry 9): the pc the step began at; after a refused fetch no word
and pc as it was, otherwise the word fetched and pc advanced by 2. -/
def Obligations.FaultRecordTellsWordAndPc : Prop :=
  ∀ s t : State, s.phase = .run → step s = .next t → t.phase = .fault →
    ∃ r, t.faultRecord = some r ∧ r.pc = s.pc ∧
      (512 ≤ s.pc.toNat ∧ s.pc.toNat ≤ 4094 → r.word = some (wordAtPc s) ∧ t.pc = s.pc + 2) ∧
      (¬ (512 ≤ s.pc.toNat ∧ s.pc.toNat ≤ 4094) → r.word = none ∧ t.pc = s.pc)

/-- An instruction that stops the core raises the one cause R222 gives it, and with MemoryOutOfRange the recorded address is
one the guard refuses (R222, R227). -/
def Obligations.FaultCauseFitsInstruction : Prop :=
  ∀ (i : Instr) (s t : State), s.phase = .run → exec i s = .next t → t.phase = .fault →
    ∃ r, t.faultRecord = some r ∧ mayRaise i r.cause ∧
      (r.cause = .memoryOutOfRange → ∃ a, r.addr = some a ∧ ¬ allowed a.toNat)

/-! ## Timers -/

/-- Ticks (R240): k of them take a running timer down by k, floor 0, and leave a stopped one; each touches nothing but its
own timer. -/
def Obligations.TicksCountDownToZero : Prop :=
  ∀ (k : Nat) (s : State),
    tickDt^[k] s = { s with dt := BitVec.ofNat 8 (if s.dtRun then s.dt.toNat - k else s.dt.toNat) } ∧
    tickSt^[k] s = { s with st := BitVec.ofNat 8 (if s.stRun then s.st.toNat - k else s.st.toNat) }

/-- The document's test of the timer (R243): set to 10 and started, ten ticks give 0, an eleventh leaves 0, and a set at
any point, to any register's value, overrides the countdown. -/
def Obligations.TimerSetThenTenTicksIsZero : Prop :=
  ∀ (s : State) (x : Reg), s.reg x = 10 → ∃ t, exec (.ldDtVx x) (startDt s) = .next t ∧
    (tickDt^[10] t).dt = 0 ∧ (tickDt^[11] t).dt = 0 ∧
    ∀ (k : Nat) (y : Reg), ∃ u, exec (.ldDtVx y) (tickDt^[k] t) = .next u ∧ u.dt = s.reg y

/-- Between two core steps pass whole ticks of each timer, as many as the schedule has, and nothing else of the machine
changes (R20, R241, R242; the schedule is free, log entry 1). -/
def Obligations.TimePassesInWholeTicks : Prop :=
  ∀ s : State, elapse s =
    { tickSt^[Config.stTicks s.instant] (tickDt^[Config.dtTicks s.instant] s) with instant := s.instant + 1 }

/-- A timer goes up only by the instruction that sets it (R30, R31): a step that runs no `Fx15` leaves DT no higher, one that
runs no `Fx18` leaves ST no higher. -/
def Obligations.TimersNeverRiseOnTheirOwn : Prop :=
  ∀ s t : State, step s = .next t →
    ((∀ x, s.phase = .run → decode (wordAtPc s) ≠ .instr (.ldDtVx x)) → t.dt.toNat ≤ s.dt.toNat) ∧
    ((∀ x, s.phase = .run → decode (wordAtPc s) ≠ .instr (.ldStVx x)) → t.st.toNat ≤ s.st.toNat)

/-! ## Control flow -/

/-- RET `00EE` (R121), field x ignored (R99, decision D10; log entry 6): pops and jumps; on an empty stack StackUnderflow (R222), pc
and the stack as on entry, the record's word and pc by R226 (decision D18; log entry 9). That the record's address is none,
where R226 calls it not meaningful, is the model's choice (log entry 11). -/
def Obligations.RetPopsOrUnderflows : Prop :=
  ∀ (x : Nibble) (s : State), decode (wordXK 0x0 x 0xEE) = .instr (.ret x) ∧
    (∀ a rest, s.stack = a :: rest → exec (.ret x) s = .next { s with pc := a, stack := rest }) ∧
    (s.stack = [] → ∃ t, exec (.ret x) s = .next t ∧
      stoppedWith (recordAt .stackUnderflow none (wordXK 0x0 x 0xEE) s) s t)

/-- JP `1nnn` (R122): pc is nnn and nothing else changes; a target below 0x200 or equal to 0xFFF is refused by the next
fetch, not here. -/
def Obligations.JpSetsPc : Prop :=
  ∀ (nnn : Addr12) (s : State), decode (wordA 0x1 nnn) = .instr (.jp nnn) ∧
    ∃ t, exec (.jp nnn) s = .next t ∧ t.pc.toNat = nnn.toNat ∧ onlyPc s t ∧
      (nnn.toNat < 0x200 → fetch t = .error nnn.toNat) ∧ (nnn = 0xFFF → fetch t = .error 0x1000)

/-- CALL `2nnn` (R123, decision D12): pushes the address of the next instruction and jumps; with sixteen entries held
StackOverflow (R222), pc and the stack as on entry, the record's word and pc by R226 (decision D18; log entry 9). The model's
choices: the record's address is none, where R226 calls it not meaningful (log entry 11), and CALL overflows on a list of more
than sixteen entries too, which no run reaches (log entry 12). -/
def Obligations.CallPushesOrOverflows : Prop :=
  ∀ (nnn : Addr12) (s : State), decode (wordA 0x2 nnn) = .instr (.call nnn) ∧
    (s.sp < 16 → ∃ t, exec (.call nnn) s = .next t ∧ t.pc.toNat = nnn.toNat ∧ t.sp = s.sp + 1 ∧ t.stk s.sp = some s.pc ∧
      (∀ k < s.sp, t.stk k = s.stk k) ∧ t = { s with pc := t.pc, stack := t.stack }) ∧
    (16 ≤ s.sp → ∃ t, exec (.call nnn) s = .next t ∧
      stoppedWith (recordAt .stackOverflow none (wordA 0x2 nnn) s) s t)

/-- A CALL and the RET that answers it: control comes back to the instruction after the CALL with everything else as before
(R29 LIFO, R121, R123). -/
def Obligations.RetUndoesCall : Prop :=
  ∀ (nnn : Addr12) (x : Nibble) (s : State), s.sp < 16 →
    ∃ t, exec (.call nnn) s = .next t ∧ exec (.ret x) t = .next s

/-- JP V0 `Bnnn` (R124, decision D7): pc is nnn + V[0], not reduced modulo 4096. -/
def Obligations.JpV0AddsV0 : Prop :=
  ∀ (nnn : Addr12) (s : State), decode (wordA 0xB nnn) = .instr (.jpV0 nnn) ∧
    ∃ t, exec (.jpV0 nnn) s = .next t ∧ t.pc.toNat = nnn.toNat + (s.reg 0).toNat ∧ onlyPc s t

/-- SE `3xkk` and SNE `4xkk` (R125, R126): skip two bytes on equality, on inequality; nothing else changes. -/
def Obligations.SkipsOnByteComparison : Prop :=
  ∀ (x : Reg) (kk : Byte) (s : State),
    decode (wordXK 0x3 x kk) = .instr (.seImm x kk) ∧ decode (wordXK 0x4 x kk) = .instr (.sneImm x kk) ∧
    (∃ t, exec (.seImm x kk) s = .next t ∧ onlyPc s t ∧
      t.pc.toNat = (if s.reg x = kk then (s.pc.toNat + 2) % 65536 else s.pc.toNat)) ∧
    (∃ t, exec (.sneImm x kk) s = .next t ∧ onlyPc s t ∧
      t.pc.toNat = (if s.reg x ≠ kk then (s.pc.toNat + 2) % 65536 else s.pc.toNat))

/-- SE `5xy0` and SNE `9xy0` (R127, R128; decision D11 for the tail of 9): skip on equal, on different registers; every other
tail is Invalid. -/
def Obligations.SkipsOnRegisterComparison : Prop :=
  ∀ (x y : Reg) (s : State),
    decode (wordXY 0x5 x y 0x0) = .instr (.seReg x y) ∧ decode (wordXY 0x9 x y 0x0) = .instr (.sneReg x y) ∧
    (∀ n, n ≠ 0 → decode (wordXY 0x5 x y n) = .invalid (wordXY 0x5 x y n) ∧
      decode (wordXY 0x9 x y n) = .invalid (wordXY 0x9 x y n)) ∧
    (∃ t, exec (.seReg x y) s = .next t ∧ onlyPc s t ∧
      t.pc.toNat = (if s.reg x = s.reg y then (s.pc.toNat + 2) % 65536 else s.pc.toNat)) ∧
    (∃ t, exec (.sneReg x y) s = .next t ∧ onlyPc s t ∧
      t.pc.toNat = (if s.reg x ≠ s.reg y then (s.pc.toNat + 2) % 65536 else s.pc.toNat))

/-! ## Loads, arithmetic, logic -/

/-- LD `6xkk` and LD `8xy0` (R141, R143). -/
def Obligations.LoadsCopyByteOrRegister : Prop :=
  ∀ (x y : Reg) (kk : Byte) (s : State),
    decode (wordXK 0x6 x kk) = .instr (.ldImm x kk) ∧ decode (wordXY 0x8 x y 0x0) = .instr (.ldReg x y) ∧
    (∃ t, exec (.ldImm x kk) s = .next t ∧ t.reg x = kk ∧ regsBut x s t ∧ onlyRegs s t) ∧
    (∃ t, exec (.ldReg x y) s = .next t ∧ t.reg x = s.reg y ∧ regsBut x s t ∧ onlyRegs s t)

/-- ADD `7xkk` (R142): modulo 256, and VF is written only as a destination. -/
def Obligations.AddImmWrapsWithoutFlag : Prop :=
  ∀ (x : Reg) (kk : Byte) (s : State), decode (wordXK 0x7 x kk) = .instr (.addImm x kk) ∧
    ∃ t, exec (.addImm x kk) s = .next t ∧ (t.reg x).toNat = ((s.reg x).toNat + kk.toNat) % 256 ∧
      regsBut x s t ∧ onlyRegs s t

/-- OR `8xy1`, AND `8xy2`, XOR `8xy3` (R144 to R146, decision D5): bitwise, and VF is written only as a destination. -/
def Obligations.LogicIsBitwiseWithoutFlag : Prop :=
  ∀ (x y : Reg) (s : State),
    decode (wordXY 0x8 x y 0x1) = .instr (.orReg x y) ∧ decode (wordXY 0x8 x y 0x2) = .instr (.andReg x y) ∧
    decode (wordXY 0x8 x y 0x3) = .instr (.xorReg x y) ∧
    (∃ t, exec (.orReg x y) s = .next t ∧
      (∀ b, (t.reg x).getLsbD b = ((s.reg x).getLsbD b || (s.reg y).getLsbD b)) ∧ regsBut x s t ∧ onlyRegs s t) ∧
    (∃ t, exec (.andReg x y) s = .next t ∧
      (∀ b, (t.reg x).getLsbD b = ((s.reg x).getLsbD b && (s.reg y).getLsbD b)) ∧ regsBut x s t ∧ onlyRegs s t) ∧
    (∃ t, exec (.xorReg x y) s = .next t ∧
      (∀ b, (t.reg x).getLsbD b = ((s.reg x).getLsbD b ^^ (s.reg y).getLsbD b)) ∧ regsBut x s t ∧ onlyRegs s t)

/-- ADD `8xy4` (R147): V[x] is the sum modulo 256 and VF the carry-out; with x = 15 the sum is what VF
holds (R153, FLAG_ORDER, decision D3; log entry 6). -/
def Obligations.AddRegSetsCarry : Prop :=
  ∀ (x y : Reg) (s : State), decode (wordXY 0x8 x y 0x4) = .instr (.addReg x y) ∧
    ∃ t, exec (.addReg x y) s = .next t ∧
      (t.reg x).toNat = ((s.reg x).toNat + (s.reg y).toNat) % 256 ∧
      (x ≠ 15 → t.reg 15 = if (s.reg x).toNat + (s.reg y).toNat > 255 then 1 else 0) ∧
      regsButFlag x s t ∧ onlyRegs s t

/-- SUB `8xy5` (R148, R153; decisions D3 and D4): V[x] − V[y] modulo 256, VF is 1 when V[x] ≥ V[y]; with x = 15 the difference is what VF
holds. -/
def Obligations.SubSetsNoBorrow : Prop :=
  ∀ (x y : Reg) (s : State), decode (wordXY 0x8 x y 0x5) = .instr (.sub x y) ∧
    ∃ t, exec (.sub x y) s = .next t ∧
      (t.reg x).toNat = ((s.reg x).toNat + 256 - (s.reg y).toNat) % 256 ∧
      (x ≠ 15 → t.reg 15 = if (s.reg x).toNat ≥ (s.reg y).toNat then 1 else 0) ∧
      regsButFlag x s t ∧ onlyRegs s t

/-- SUBN `8xy7` (R150, R153; decisions D3 and D4): V[y] − V[x] modulo 256, VF is 1 when V[y] ≥ V[x]. -/
def Obligations.SubnSetsNoBorrow : Prop :=
  ∀ (x y : Reg) (s : State), decode (wordXY 0x8 x y 0x7) = .instr (.subn x y) ∧
    ∃ t, exec (.subn x y) s = .next t ∧
      (t.reg x).toNat = ((s.reg y).toNat + 256 - (s.reg x).toNat) % 256 ∧
      (x ≠ 15 → t.reg 15 = if (s.reg y).toNat ≥ (s.reg x).toNat then 1 else 0) ∧
      regsButFlag x s t ∧ onlyRegs s t

/-- SHR `8xy6` (R149, R153; decisions D2 and D3): V[x] div 2, VF is the old bit 0, V[y] never matters. -/
def Obligations.ShrHalvesAndReportsBit : Prop :=
  ∀ (x y : Reg) (s : State), decode (wordXY 0x8 x y 0x6) = .instr (.shr x y) ∧
    ∃ t, exec (.shr x y) s = .next t ∧ (t.reg x).toNat = (s.reg x).toNat / 2 ∧
      (x ≠ 15 → (t.reg 15).toNat = (s.reg x).toNat % 2) ∧ regsButFlag x s t ∧ onlyRegs s t

/-- SHL `8xyE` (R151, R153; decisions D2 and D3): V[x] · 2 modulo 256, VF is the old bit 7, V[y] never matters. -/
def Obligations.ShlDoublesAndReportsBit : Prop :=
  ∀ (x y : Reg) (s : State), decode (wordXY 0x8 x y 0xE) = .instr (.shl x y) ∧
    ∃ t, exec (.shl x y) s = .next t ∧ (t.reg x).toNat = (s.reg x).toNat * 2 % 256 ∧
      (x ≠ 15 → (t.reg 15).toNat = (s.reg x).toNat / 128) ∧ regsButFlag x s t ∧ onlyRegs s t

/-- RND `Cxkk` (R152): V[x] is the random byte AND kk, for whatever byte the free input gives. -/
def Obligations.RndMasksTheRandomByte : Prop :=
  ∀ (x : Reg) (kk : Byte) (s : State), decode (wordXK 0xC x kk) = .instr (.rnd x kk) ∧
    ∃ t, exec (.rnd x kk) s = .next t ∧ t.reg x = Config.randByte s.instant &&& kk ∧
      (∀ b, kk.getLsbD b = false → (t.reg x).getLsbD b = false) ∧ regsBut x s t ∧ onlyRegs s t

/-! ## Index register and memory -/

/-- LD I `Annn` (R171): any 12-bit value, unchecked. -/
def Obligations.LdISetsIndex : Prop :=
  ∀ (nnn : Addr12) (s : State), decode (wordA 0xA nnn) = .instr (.ldI nnn) ∧
    ∃ t, exec (.ldI nnn) s = .next t ∧ t.i.toNat = nnn.toNat ∧ t = { s with i := t.i }

/-- ADD I `Fx1E` (R172, decision D8): modulo 65536, VF not written. -/
def Obligations.AddIWrapsWithoutFlag : Prop :=
  ∀ (x : Reg) (s : State), decode (wordXK 0xF x 0x1E) = .instr (.addIVx x) ∧
    ∃ t, exec (.addIVx x) s = .next t ∧ t.i.toNat = (s.i.toNat + (s.reg x).toNat) % 65536 ∧ t = { s with i := t.i }

/-- LD F `Fx29` (R173; decisions D17 and D26): for a digit 0–15 the glyph's address 0x50 + 5·d, above it an unspecified value,
free in the model (log entry 4); nothing but I changes. -/
def Obligations.LdFPointsAtGlyph : Prop :=
  ∀ (x : Reg) (s : State), decode (wordXK 0xF x 0x29) = .instr (.ldFVx x) ∧
    ∃ t, exec (.ldFVx x) s = .next t ∧ t = { s with i := t.i } ∧
      ((s.reg x).toNat ≤ 15 → t.i.toNat = 0x50 + 5 * (s.reg x).toNat) ∧
      (15 < (s.reg x).toNat → t.i = Config.fontDraw s.instant)

/-- LD B `Fx33` (R174): hundreds, tens and ones at I, I+1, I+2 and nothing else changes; at the first of the three addresses
the guard refuses, MemoryOutOfRange with the digits before it stored (R70, R170; decision D19), the record's word and pc by R226
(decision D18; log entry 9). -/
def Obligations.LdBStoresDigits : Prop :=
  ∀ (x : Reg) (s : State), decode (wordXK 0xF x 0x33) = .instr (.ldBVx x) ∧
    (blockAllowed s 3 → ∃ t, exec (.ldBVx x) s = .next t ∧ onlyMem s t ∧
      (t.peek s.i.toNat).toNat = (s.reg x).toNat / 100 ∧
      (t.peek (s.i.toNat + 1)).toNat = (s.reg x).toNat / 10 % 10 ∧
      (t.peek (s.i.toNat + 2)).toNat = (s.reg x).toNat % 10 ∧
      ∀ a, (∀ j < 3, a ≠ s.i.toNat + j) → t.peek a = s.peek a) ∧
    (∀ k, firstRefused s 3 k → ∃ t, exec (.ldBVx x) s = .next t ∧
      stoppedWith (recordAt .memoryOutOfRange (some (BitVec.ofNat 17 (s.i.toNat + k))) (wordXK 0xF x 0x33) s)
        { s with mem := t.mem } t ∧
      (0 < k → (t.peek s.i.toNat).toNat = (s.reg x).toNat / 100) ∧
      (1 < k → (t.peek (s.i.toNat + 1)).toNat = (s.reg x).toNat / 10 % 10) ∧
      ∀ a, (∀ j < k, a ≠ s.i.toNat + j) → t.peek a = s.peek a)

/-- LD [I] `Fx55` (R175; decisions D6 and D19): V[0] … V[x] at I … I+x, I unchanged; at the first address the guard refuses,
MemoryOutOfRange with the bytes before it stored, the record's word and pc by R226 (decision D18; log entry 9). -/
def Obligations.LdMemStoresRegisters : Prop :=
  ∀ (x : Reg) (s : State), decode (wordXK 0xF x 0x55) = .instr (.ldMemVx x) ∧
    (blockAllowed s (x.toNat + 1) → ∃ t, exec (.ldMemVx x) s = .next t ∧ onlyMem s t ∧
      (∀ r : Reg, r.toNat ≤ x.toNat → t.peek (s.i.toNat + r.toNat) = s.reg r) ∧
      ∀ a, (∀ j ≤ x.toNat, a ≠ s.i.toNat + j) → t.peek a = s.peek a) ∧
    (∀ k, firstRefused s (x.toNat + 1) k → ∃ t, exec (.ldMemVx x) s = .next t ∧
      stoppedWith (recordAt .memoryOutOfRange (some (BitVec.ofNat 17 (s.i.toNat + k))) (wordXK 0xF x 0x55) s)
        { s with mem := t.mem } t ∧
      (∀ r : Reg, r.toNat < k → t.peek (s.i.toNat + r.toNat) = s.reg r) ∧
      ∀ a, (∀ j < k, a ≠ s.i.toNat + j) → t.peek a = s.peek a)

/-- LD Vx `Fx65` (R176; decisions D6 and D19): V[0] … V[x] from I … I+x, I unchanged; at the first address the guard refuses,
MemoryOutOfRange with the registers before it loaded, the record's word and pc by R226 (decision D18; log entry 9). -/
def Obligations.LdVxMemLoadsRegisters : Prop :=
  ∀ (x : Reg) (s : State), decode (wordXK 0xF x 0x65) = .instr (.ldVxMem x) ∧
    (blockAllowed s (x.toNat + 1) → ∃ t, exec (.ldVxMem x) s = .next t ∧ onlyRegs s t ∧
      ∀ r : Reg, t.reg r = if r.toNat ≤ x.toNat then s.peek (s.i.toNat + r.toNat) else s.reg r) ∧
    (∀ k, firstRefused s (x.toNat + 1) k → ∃ t, exec (.ldVxMem x) s = .next t ∧
      stoppedWith (recordAt .memoryOutOfRange (some (BitVec.ofNat 17 (s.i.toNat + k))) (wordXK 0xF x 0x65) s)
        { s with v := t.v } t ∧
      ∀ r : Reg, t.reg r = if r.toNat < k then s.peek (s.i.toNat + r.toNat) else s.reg r)

/-- What `Fx55` stores, `Fx65` loads back (R175, R176; decision D6 keeps I): the store changes nothing but the bytes at I … I+x,
and a load from there gives V[0] … V[x] their values again, from every state with that memory and the same I, whatever its
registers hold, and leaves its other registers alone; run at once after the store, the load changes nothing. -/
def Obligations.LoadAfterStoreRestoresRegisters : Prop :=
  ∀ (x : Reg) (s : State), blockAllowed s (x.toNat + 1) →
    ∃ t, exec (.ldMemVx x) s = .next t ∧ onlyMem s t ∧
      (∀ a, (∀ j ≤ x.toNat, a ≠ s.i.toNat + j) → t.peek a = s.peek a) ∧
      (∀ u : State, u.mem = t.mem → u.i = s.i → ∃ w, exec (.ldVxMem x) u = .next w ∧ onlyRegs u w ∧
        ∀ r : Reg, w.reg r = if r.toNat ≤ x.toNat then s.reg r else u.reg r) ∧
      exec (.ldVxMem x) t = .next t

/-! ## Display -/

/-- CLS `00E0` (R190), field x ignored (R99, ZERO_HEAD_MASK, decision D10; log entry 6): every cell unset, nothing else changes, VF included. -/
def Obligations.ClsUnsetsEveryCell : Prop :=
  ∀ (x : Nibble) (s : State), decode (wordXK 0x0 x 0xE0) = .instr (.cls x) ∧
    ∃ t, exec (.cls x) s = .next t ∧ (∀ row col, cell t.fb row col = false) ∧ t = { s with fb := t.fb }

/-- The blit (R192), for a sprite of at most 32 rows (DRW draws at most 15): a cell is toggled exactly where the sprite has a
set bit, each pixel wrapping on its own, and a collision is reported exactly when a set bit meets a set cell. -/
def Obligations.BlitTogglesCoveredCells : Prop :=
  ∀ (cx cy : Nat) (sprite : List Byte) (fb : FrameBuffer), sprite.length ≤ 32 →
    (∀ row col, cell (blit cx cy sprite fb).1 row col = true ↔
      (cell fb row col = true ∧ ¬ covers cx cy sprite row col) ∨ (cell fb row col = false ∧ covers cx cy sprite row col)) ∧
    ((blit cx cy sprite fb).2 = true ↔ ∃ row col, cell fb row col = true ∧ covers cx cy sprite row col)

/-- Drawing the same sprite twice at the same place (R193) restores the framebuffer; on a clear screen the first draw reports
no collision and the second one exactly when the sprite has a set bit. -/
def Obligations.DrawingTwiceRestores : Prop :=
  ∀ (cx cy : Nat) (sprite : List Byte) (fb : FrameBuffer),
    (blit cx cy sprite (blit cx cy sprite fb).1).1 = fb ∧
    (sprite.length ≤ 32 → (blit cx cy sprite FrameBuffer.blank).2 = false ∧
      ((blit cx cy sprite (blit cx cy sprite FrameBuffer.blank).1).2 = true ↔ ∃ b ∈ sprite, b ≠ 0))

/-- DRW `Dxyn` (R191, decision D9): when the guard allows all n bytes from I on, each cell the sprite covers is toggled, VF is 1
exactly when a covered cell was set (0 for n = 0), I is unchanged, and nothing but framebuffer and VF changes. -/
def Obligations.DrwDrawsSprite : Prop :=
  ∀ (x y : Reg) (n : Nibble) (s : State), decode (wordXY 0xD x y n) = .instr (.drw x y n) ∧
    (blockAllowed s n.toNat → ∃ t, exec (.drw x y n) s = .next t ∧
      t = { s with fb := t.fb, v := t.v } ∧ regsBut 15 s t ∧
      (∀ row col, cell t.fb row col = true ↔
        (cell s.fb row col = true ∧ ¬ covers (s.reg x).toNat (s.reg y).toNat (spriteAt s n.toNat) row col) ∨
        (cell s.fb row col = false ∧ covers (s.reg x).toNat (s.reg y).toNat (spriteAt s n.toNat) row col)) ∧
      ((∃ row col, cell s.fb row col = true ∧ covers (s.reg x).toNat (s.reg y).toNat (spriteAt s n.toNat) row col) →
        t.reg 15 = 1) ∧
      ((¬ ∃ row col, cell s.fb row col = true ∧ covers (s.reg x).toNat (s.reg y).toNat (spriteAt s n.toNat) row col) →
        t.reg 15 = 0))

/-- DRW whose sprite reads are refused (R191, R73): MemoryOutOfRange at the first refused address, framebuffer and VF
unchanged; the font region is such a place. The record's word and pc are those of R226 (decision D18; log entry 9). -/
def Obligations.DrwStopsWithoutDrawing : Prop :=
  ∀ (x y : Reg) (n : Nibble) (s : State) (k : Nat), firstRefused s n.toNat k → ∃ t, exec (.drw x y n) s = .next t ∧
    stoppedWith (recordAt .memoryOutOfRange (some (BitVec.ofNat 17 (s.i.toNat + k))) (wordXY 0xD x y n) s) s t

/-! ## Timers and keys -/

/-- LD Vx, DT `Fx07`, LD DT, Vx `Fx15` and LD ST, Vx `Fx18` (R202 to R204): the register takes the delay timer's value; the
timer takes the register's value, any value, and nothing else changes, the run bit and the other timer included;
`sound_on` follows ST (R31). -/
def Obligations.TimerAccessIsImmediate : Prop :=
  ∀ (x : Reg) (s : State), decode (wordXK 0xF x 0x07) = .instr (.ldVxDt x) ∧
    decode (wordXK 0xF x 0x15) = .instr (.ldDtVx x) ∧ decode (wordXK 0xF x 0x18) = .instr (.ldStVx x) ∧
    (∃ t, exec (.ldVxDt x) s = .next t ∧ t.reg x = s.dt ∧ regsBut x s t ∧ onlyRegs s t) ∧
    (∃ t, exec (.ldDtVx x) s = .next t ∧ t.dt = s.reg x ∧ t = { s with dt := t.dt }) ∧
    (∃ t, exec (.ldStVx x) s = .next t ∧ t.st = s.reg x ∧ t = { s with st := t.st } ∧
      (soundOn t = true ↔ s.reg x ≠ 0))

/-- SKP `Ex9E` and SKNP `ExA1` (R205, R206): skip on the answer of `KeyHeld(V[x])` at the instant of the step, on its
opposite; the answer is an input (for a code above 15 an unspecified Boolean) and neither faults. -/
def Obligations.KeySkipsFollowKeyHeld : Prop :=
  ∀ (x : Reg) (s : State), decode (wordXK 0xE x 0x9E) = .instr (.skp x) ∧ decode (wordXK 0xE x 0xA1) = .instr (.sknp x) ∧
    (∃ t, exec (.skp x) s = .next t ∧ onlyPc s t ∧
      t.pc.toNat = (if Config.keyHeld s.instant (s.reg x) = true then (s.pc.toNat + 2) % 65536 else s.pc.toNat)) ∧
    (∃ t, exec (.sknp x) s = .next t ∧ onlyPc s t ∧
      t.pc.toNat = (if Config.keyHeld s.instant (s.reg x) = true then s.pc.toNat else (s.pc.toNat + 2) % 65536))

/-- LD Vx, K `Fx0A` (R207, decision D27): a key reported at once is loaded and the phase stays RUN; with none the core waits
for register x; pc is not touched either way. -/
def Obligations.LdVxKLoadsOrWaits : Prop :=
  ∀ (x : Reg) (s : State), s.phase = .run → decode (wordXK 0xF x 0x0A) = .instr (.ldVxK x) ∧
    ∃ t, exec (.ldVxK x) s = .next t ∧
      (∀ k, Config.keyWait s.instant = some k → t.reg x = BitVec.ofNat 8 k.toNat ∧ regsBut x s t ∧ onlyRegs s t) ∧
      (Config.keyWait s.instant = none → t = { s with phase := .waitKey x })
end

