-- ==== Sys2Proof/Laws/Decode.lean ====
section
/-! SUPPORT. The fields of a word built from fields, and a word from its own fields. -/

namespace Sys2Proof

/-! ## Formats as numbers -/

theorem append_toNat {n m : Nat} (a : BitVec n) (b : BitVec m) : (a ++ b).toNat = a.toNat * 2 ^ m + b.toNat := by
  rw [BitVec.toNat_append, ← Nat.shiftLeft_add_eq_or_of_lt b.isLt, Nat.shiftLeft_eq]

theorem wordA_toNat (h : Nibble) (a : Addr12) : (wordA h a).toNat = h.toNat * 4096 + a.toNat :=
  append_toNat h a

theorem wordXK_toNat (h : Nibble) (x : Reg) (kk : Byte) :
    (wordXK h x kk).toNat = h.toNat * 4096 + x.toNat * 256 + kk.toNat := by
  have e : (wordXK h x kk).toNat = (h ++ x).toNat * 2 ^ 8 + kk.toNat := append_toNat (h ++ x) kk
  rw [e, append_toNat]; omega

theorem wordXY_toNat (h : Nibble) (x y : Reg) (n : Nibble) :
    (wordXY h x y n).toNat = h.toNat * 4096 + x.toNat * 256 + y.toNat * 16 + n.toNat := by
  have e : (wordXY h x y n).toNat = (h ++ x ++ y).toNat * 2 ^ 4 + n.toNat := append_toNat (h ++ x ++ y) n
  rw [e, append_toNat, append_toNat]; omega

/-! ## Fields as numbers -/

theorem fieldHead_toNat (w : Word) : (fieldHead w).toNat = w.toNat / 4096 := by
  have := w.isLt
  simp [fieldHead, BitVec.extractLsb'_toNat, Nat.shiftRight_eq_div_pow]; omega

theorem fieldX_toNat (w : Word) : (fieldX w).toNat = w.toNat / 256 % 16 := by
  simp [fieldX, BitVec.extractLsb'_toNat, Nat.shiftRight_eq_div_pow]

theorem fieldY_toNat (w : Word) : (fieldY w).toNat = w.toNat / 16 % 16 := by
  simp [fieldY, BitVec.extractLsb'_toNat, Nat.shiftRight_eq_div_pow]

theorem fieldN_toNat (w : Word) : (fieldN w).toNat = w.toNat % 16 := by
  simp [fieldN, BitVec.extractLsb'_toNat]

theorem fieldKK_toNat (w : Word) : (fieldKK w).toNat = w.toNat % 256 := by
  simp [fieldKK, BitVec.extractLsb'_toNat]

theorem fieldNNN_toNat (w : Word) : (fieldNNN w).toNat = w.toNat % 4096 := by
  simp [fieldNNN, BitVec.extractLsb'_toNat]

/-! ## Fields of a format -/

@[simp] theorem fieldHead_wordA (h : Nibble) (a : Addr12) : fieldHead (wordA h a) = h := by
  apply BitVec.eq_of_toNat_eq; rw [fieldHead_toNat, wordA_toNat]; omega

@[simp] theorem fieldNNN_wordA (h : Nibble) (a : Addr12) : fieldNNN (wordA h a) = a := by
  apply BitVec.eq_of_toNat_eq; rw [fieldNNN_toNat, wordA_toNat]; omega

@[simp] theorem fieldHead_wordXK (h : Nibble) (x : Reg) (kk : Byte) : fieldHead (wordXK h x kk) = h := by
  apply BitVec.eq_of_toNat_eq; rw [fieldHead_toNat, wordXK_toNat]; omega

@[simp] theorem fieldX_wordXK (h : Nibble) (x : Reg) (kk : Byte) : fieldX (wordXK h x kk) = x := by
  apply BitVec.eq_of_toNat_eq; rw [fieldX_toNat, wordXK_toNat]; omega

@[simp] theorem fieldKK_wordXK (h : Nibble) (x : Reg) (kk : Byte) : fieldKK (wordXK h x kk) = kk := by
  apply BitVec.eq_of_toNat_eq; rw [fieldKK_toNat, wordXK_toNat]; omega

@[simp] theorem fieldHead_wordXY (h : Nibble) (x y : Reg) (n : Nibble) : fieldHead (wordXY h x y n) = h := by
  apply BitVec.eq_of_toNat_eq; rw [fieldHead_toNat, wordXY_toNat]; omega

@[simp] theorem fieldX_wordXY (h : Nibble) (x y : Reg) (n : Nibble) : fieldX (wordXY h x y n) = x := by
  apply BitVec.eq_of_toNat_eq; rw [fieldX_toNat, wordXY_toNat]; omega

@[simp] theorem fieldY_wordXY (h : Nibble) (x y : Reg) (n : Nibble) : fieldY (wordXY h x y n) = y := by
  apply BitVec.eq_of_toNat_eq; rw [fieldY_toNat, wordXY_toNat]; omega

@[simp] theorem fieldN_wordXY (h : Nibble) (x y : Reg) (n : Nibble) : fieldN (wordXY h x y n) = n := by
  apply BitVec.eq_of_toNat_eq; rw [fieldN_toNat, wordXY_toNat]; omega

/-! ## A word from its fields -/

theorem wordA_fields (w : Word) : wordA (fieldHead w) (fieldNNN w) = w := by
  apply BitVec.eq_of_toNat_eq; rw [wordA_toNat, fieldHead_toNat, fieldNNN_toNat]; omega

theorem wordXK_fields (w : Word) : wordXK (fieldHead w) (fieldX w) (fieldKK w) = w := by
  apply BitVec.eq_of_toNat_eq; rw [wordXK_toNat, fieldHead_toNat, fieldX_toNat, fieldKK_toNat]; omega

theorem wordXY_fields (w : Word) : wordXY (fieldHead w) (fieldX w) (fieldY w) (fieldN w) = w := by
  apply BitVec.eq_of_toNat_eq
  rw [wordXY_toNat, fieldHead_toNat, fieldX_toNat, fieldY_toNat, fieldN_toNat]; omega

/-- A word of two bytes, and the bytes of a word (spec/20_memory.md R65). -/
theorem wordOfBytes_toNat (hi lo : Byte) : (wordOfBytes hi lo).toNat = hi.toNat * 256 + lo.toNat :=
  append_toNat hi lo

@[simp] theorem wordOfBytes_bytes (w : Word) : wordOfBytes (highByte w) (lowByte w) = w := by
  apply BitVec.eq_of_toNat_eq
  have := w.isLt
  rw [wordOfBytes_toNat]
  simp only [highByte, lowByte, BitVec.extractLsb'_toNat, Nat.shiftRight_eq_div_pow]
  omega

/-! ## Masks of the opcode table (R98) as numbers -/

theorem high_or_low_toNat (w : Word) (k : Nat) (hk : k ≤ 12) :
    ((w >>> 12) <<< 12 ||| BitVec.ofNat 16 (w.toNat % 2 ^ k)).toNat = w.toNat / 4096 * 4096 + w.toNat % 2 ^ k := by
  have := w.isLt
  have hb : w.toNat % 2 ^ k < 2 ^ 12 :=
    Nat.lt_of_lt_of_le (Nat.mod_lt _ (Nat.two_pow_pos k)) (Nat.pow_le_pow_right (by decide) hk)
  have hs : ((w >>> 12) <<< 12).toNat = (w.toNat / 4096) <<< 12 := by
    simp [Nat.shiftRight_eq_div_pow, Nat.shiftLeft_eq]; omega
  rw [BitVec.toNat_or, hs, BitVec.toNat_ofNat, Nat.mod_eq_of_lt (a := w.toNat % 2 ^ k) (by omega),
    ← Nat.shiftLeft_add_eq_or_of_lt hb, Nat.shiftLeft_eq]

theorem and_F000_toNat (w : Word) : (w &&& 0xF000#16).toNat = w.toNat / 4096 * 4096 := by
  have e : w &&& 0xF000#16 = (w >>> 12) <<< 12 ||| BitVec.ofNat 16 (w.toNat % 2 ^ 0) := by
    ext i hi; simp [Nat.mod_one]; interval_cases i <;> simp
  rw [e, high_or_low_toNat w 0 (by decide)]; omega

theorem and_F00F_toNat (w : Word) : (w &&& 0xF00F#16).toNat = w.toNat / 4096 * 4096 + w.toNat % 16 := by
  have e : w &&& 0xF00F#16 = (w >>> 12) <<< 12 ||| BitVec.ofNat 16 (w.toNat % 2 ^ 4) := by
    rw [← BitVec.toNat_setWidth, BitVec.ofNat_toNat]
    ext i hi; simp; interval_cases i <;> simp
  rw [e]; exact high_or_low_toNat w 4 (by decide)

theorem and_F0FF_toNat (w : Word) : (w &&& 0xF0FF#16).toNat = w.toNat / 4096 * 4096 + w.toNat % 256 := by
  have e : w &&& 0xF0FF#16 = (w >>> 12) <<< 12 ||| BitVec.ofNat 16 (w.toNat % 2 ^ 8) := by
    rw [← BitVec.toNat_setWidth, BitVec.ofNat_toNat]
    ext i hi; simp; interval_cases i <;> simp
  rw [e]; exact high_or_low_toNat w 8 (by decide)

/-! ## Invalid -/

/-- `Invalid` carries the word that was decoded (spec/30_encoding.md R94). -/
theorem decode_invalid_word {w w' : Word} (h : decode w = .invalid w') : w' = w := by
  unfold decode decodeWith decodeHead0 decodeHead8 decodeHeadE decodeHeadF at h
  repeat' split at h
  all_goals first | (cases h; rfl) | cases h

end Sys2Proof
end

