-- ==== Sys2Proof/Laws/State.lean ====
section
/-! SUPPORT. What each update of the state leaves in each field: one lemma per field per update, true by rfl. -/

namespace Sys2Proof.Machine

/-! ## State.setReg: register write -/

@[simp] theorem State.setReg_v (s : State) (r : Reg) (b : Byte) : (s.setReg r b).v = s.v.set r.toNat b r.isLt := rfl
@[simp] theorem State.setReg_i (s : State) (r : Reg) (b : Byte) : (s.setReg r b).i = s.i := rfl
@[simp] theorem State.setReg_pc (s : State) (r : Reg) (b : Byte) : (s.setReg r b).pc = s.pc := rfl
@[simp] theorem State.setReg_stack (s : State) (r : Reg) (b : Byte) : (s.setReg r b).stack = s.stack := rfl
@[simp] theorem State.setReg_dt (s : State) (r : Reg) (b : Byte) : (s.setReg r b).dt = s.dt := rfl
@[simp] theorem State.setReg_st (s : State) (r : Reg) (b : Byte) : (s.setReg r b).st = s.st := rfl
@[simp] theorem State.setReg_dtRun (s : State) (r : Reg) (b : Byte) : (s.setReg r b).dtRun = s.dtRun := rfl
@[simp] theorem State.setReg_stRun (s : State) (r : Reg) (b : Byte) : (s.setReg r b).stRun = s.stRun := rfl
@[simp] theorem State.setReg_fb (s : State) (r : Reg) (b : Byte) : (s.setReg r b).fb = s.fb := rfl
@[simp] theorem State.setReg_mem (s : State) (r : Reg) (b : Byte) : (s.setReg r b).mem = s.mem := rfl
@[simp] theorem State.setReg_phase (s : State) (r : Reg) (b : Byte) : (s.setReg r b).phase = s.phase := rfl
@[simp] theorem State.setReg_faultRecord (s : State) (r : Reg) (b : Byte) : (s.setReg r b).faultRecord = s.faultRecord := rfl
@[simp] theorem State.setReg_instant (s : State) (r : Reg) (b : Byte) : (s.setReg r b).instant = s.instant := rfl

/-! ## jumpTo: jump -/

@[simp] theorem jumpTo_v (a : Word) (s : State) : (jumpTo a s).v = s.v := rfl
@[simp] theorem jumpTo_i (a : Word) (s : State) : (jumpTo a s).i = s.i := rfl
@[simp] theorem jumpTo_pc (a : Word) (s : State) : (jumpTo a s).pc = a := rfl
@[simp] theorem jumpTo_stack (a : Word) (s : State) : (jumpTo a s).stack = s.stack := rfl
@[simp] theorem jumpTo_dt (a : Word) (s : State) : (jumpTo a s).dt = s.dt := rfl
@[simp] theorem jumpTo_st (a : Word) (s : State) : (jumpTo a s).st = s.st := rfl
@[simp] theorem jumpTo_dtRun (a : Word) (s : State) : (jumpTo a s).dtRun = s.dtRun := rfl
@[simp] theorem jumpTo_stRun (a : Word) (s : State) : (jumpTo a s).stRun = s.stRun := rfl
@[simp] theorem jumpTo_fb (a : Word) (s : State) : (jumpTo a s).fb = s.fb := rfl
@[simp] theorem jumpTo_mem (a : Word) (s : State) : (jumpTo a s).mem = s.mem := rfl
@[simp] theorem jumpTo_phase (a : Word) (s : State) : (jumpTo a s).phase = s.phase := rfl
@[simp] theorem jumpTo_faultRecord (a : Word) (s : State) : (jumpTo a s).faultRecord = s.faultRecord := rfl
@[simp] theorem jumpTo_instant (a : Word) (s : State) : (jumpTo a s).instant = s.instant := rfl

/-! ## skipIf: skip -/

@[simp] theorem skipIf_v (c : Bool) (s : State) : (skipIf c s).v = s.v := rfl
@[simp] theorem skipIf_i (c : Bool) (s : State) : (skipIf c s).i = s.i := rfl
@[simp] theorem skipIf_pc (c : Bool) (s : State) : (skipIf c s).pc = if c then s.pc + 2 else s.pc := rfl
@[simp] theorem skipIf_stack (c : Bool) (s : State) : (skipIf c s).stack = s.stack := rfl
@[simp] theorem skipIf_dt (c : Bool) (s : State) : (skipIf c s).dt = s.dt := rfl
@[simp] theorem skipIf_st (c : Bool) (s : State) : (skipIf c s).st = s.st := rfl
@[simp] theorem skipIf_dtRun (c : Bool) (s : State) : (skipIf c s).dtRun = s.dtRun := rfl
@[simp] theorem skipIf_stRun (c : Bool) (s : State) : (skipIf c s).stRun = s.stRun := rfl
@[simp] theorem skipIf_fb (c : Bool) (s : State) : (skipIf c s).fb = s.fb := rfl
@[simp] theorem skipIf_mem (c : Bool) (s : State) : (skipIf c s).mem = s.mem := rfl
@[simp] theorem skipIf_phase (c : Bool) (s : State) : (skipIf c s).phase = s.phase := rfl
@[simp] theorem skipIf_faultRecord (c : Bool) (s : State) : (skipIf c s).faultRecord = s.faultRecord := rfl
@[simp] theorem skipIf_instant (c : Bool) (s : State) : (skipIf c s).instant = s.instant := rfl

/-! ## raise: raise -/

@[simp] theorem raise_v (c : FaultCause) (a : Option Nat) (w : Option Word) (p : Word) (s : State) : (raise c a w p s).v = s.v := rfl
@[simp] theorem raise_i (c : FaultCause) (a : Option Nat) (w : Option Word) (p : Word) (s : State) : (raise c a w p s).i = s.i := rfl
@[simp] theorem raise_pc (c : FaultCause) (a : Option Nat) (w : Option Word) (p : Word) (s : State) : (raise c a w p s).pc = s.pc := rfl
@[simp] theorem raise_stack (c : FaultCause) (a : Option Nat) (w : Option Word) (p : Word) (s : State) : (raise c a w p s).stack = s.stack := rfl
@[simp] theorem raise_dt (c : FaultCause) (a : Option Nat) (w : Option Word) (p : Word) (s : State) : (raise c a w p s).dt = s.dt := rfl
@[simp] theorem raise_st (c : FaultCause) (a : Option Nat) (w : Option Word) (p : Word) (s : State) : (raise c a w p s).st = s.st := rfl
@[simp] theorem raise_dtRun (c : FaultCause) (a : Option Nat) (w : Option Word) (p : Word) (s : State) : (raise c a w p s).dtRun = s.dtRun := rfl
@[simp] theorem raise_stRun (c : FaultCause) (a : Option Nat) (w : Option Word) (p : Word) (s : State) : (raise c a w p s).stRun = s.stRun := rfl
@[simp] theorem raise_fb (c : FaultCause) (a : Option Nat) (w : Option Word) (p : Word) (s : State) : (raise c a w p s).fb = s.fb := rfl
@[simp] theorem raise_mem (c : FaultCause) (a : Option Nat) (w : Option Word) (p : Word) (s : State) : (raise c a w p s).mem = s.mem := rfl
@[simp] theorem raise_phase (c : FaultCause) (a : Option Nat) (w : Option Word) (p : Word) (s : State) : (raise c a w p s).phase = .fault := rfl
@[simp] theorem raise_faultRecord (c : FaultCause) (a : Option Nat) (w : Option Word) (p : Word) (s : State) : (raise c a w p s).faultRecord = some ⟨c, a.map (BitVec.ofNat 17), w, p⟩ := rfl
@[simp] theorem raise_instant (c : FaultCause) (a : Option Nat) (w : Option Word) (p : Word) (s : State) : (raise c a w p s).instant = s.instant := rfl

/-! ## raiseAt: raise in the execute stage -/

@[simp] theorem raiseAt_v (c : FaultCause) (a : Option Nat) (w : Word) (s : State) : (raiseAt c a w s).v = s.v := rfl
@[simp] theorem raiseAt_i (c : FaultCause) (a : Option Nat) (w : Word) (s : State) : (raiseAt c a w s).i = s.i := rfl
@[simp] theorem raiseAt_pc (c : FaultCause) (a : Option Nat) (w : Word) (s : State) : (raiseAt c a w s).pc = s.pc := rfl
@[simp] theorem raiseAt_stack (c : FaultCause) (a : Option Nat) (w : Word) (s : State) : (raiseAt c a w s).stack = s.stack := rfl
@[simp] theorem raiseAt_dt (c : FaultCause) (a : Option Nat) (w : Word) (s : State) : (raiseAt c a w s).dt = s.dt := rfl
@[simp] theorem raiseAt_st (c : FaultCause) (a : Option Nat) (w : Word) (s : State) : (raiseAt c a w s).st = s.st := rfl
@[simp] theorem raiseAt_dtRun (c : FaultCause) (a : Option Nat) (w : Word) (s : State) : (raiseAt c a w s).dtRun = s.dtRun := rfl
@[simp] theorem raiseAt_stRun (c : FaultCause) (a : Option Nat) (w : Word) (s : State) : (raiseAt c a w s).stRun = s.stRun := rfl
@[simp] theorem raiseAt_fb (c : FaultCause) (a : Option Nat) (w : Word) (s : State) : (raiseAt c a w s).fb = s.fb := rfl
@[simp] theorem raiseAt_mem (c : FaultCause) (a : Option Nat) (w : Word) (s : State) : (raiseAt c a w s).mem = s.mem := rfl
@[simp] theorem raiseAt_phase (c : FaultCause) (a : Option Nat) (w : Word) (s : State) : (raiseAt c a w s).phase = .fault := rfl
@[simp] theorem raiseAt_faultRecord (c : FaultCause) (a : Option Nat) (w : Word) (s : State) : (raiseAt c a w s).faultRecord = some ⟨c, a.map (BitVec.ofNat 17), some w, s.pc - 2⟩ := rfl
@[simp] theorem raiseAt_instant (c : FaultCause) (a : Option Nat) (w : Word) (s : State) : (raiseAt c a w s).instant = s.instant := rfl

/-! ## drawSprite: draw -/

@[simp] theorem drawSprite_v (cx cy : Byte) (l : List Byte) (s : State) : (drawSprite cx cy l s).v = s.v.set 15 (flagByte (blit cx.toNat cy.toNat l s.fb).2) := rfl
@[simp] theorem drawSprite_i (cx cy : Byte) (l : List Byte) (s : State) : (drawSprite cx cy l s).i = s.i := rfl
@[simp] theorem drawSprite_pc (cx cy : Byte) (l : List Byte) (s : State) : (drawSprite cx cy l s).pc = s.pc := rfl
@[simp] theorem drawSprite_stack (cx cy : Byte) (l : List Byte) (s : State) : (drawSprite cx cy l s).stack = s.stack := rfl
@[simp] theorem drawSprite_dt (cx cy : Byte) (l : List Byte) (s : State) : (drawSprite cx cy l s).dt = s.dt := rfl
@[simp] theorem drawSprite_st (cx cy : Byte) (l : List Byte) (s : State) : (drawSprite cx cy l s).st = s.st := rfl
@[simp] theorem drawSprite_dtRun (cx cy : Byte) (l : List Byte) (s : State) : (drawSprite cx cy l s).dtRun = s.dtRun := rfl
@[simp] theorem drawSprite_stRun (cx cy : Byte) (l : List Byte) (s : State) : (drawSprite cx cy l s).stRun = s.stRun := rfl
@[simp] theorem drawSprite_fb (cx cy : Byte) (l : List Byte) (s : State) : (drawSprite cx cy l s).fb = (blit cx.toNat cy.toNat l s.fb).1 := rfl
@[simp] theorem drawSprite_mem (cx cy : Byte) (l : List Byte) (s : State) : (drawSprite cx cy l s).mem = s.mem := rfl
@[simp] theorem drawSprite_phase (cx cy : Byte) (l : List Byte) (s : State) : (drawSprite cx cy l s).phase = s.phase := rfl
@[simp] theorem drawSprite_faultRecord (cx cy : Byte) (l : List Byte) (s : State) : (drawSprite cx cy l s).faultRecord = s.faultRecord := rfl
@[simp] theorem drawSprite_instant (cx cy : Byte) (l : List Byte) (s : State) : (drawSprite cx cy l s).instant = s.instant := rfl

/-! ## tickDt: delay-timer tick -/

@[simp] theorem tickDt_v (s : State) : (tickDt s).v = s.v := rfl
@[simp] theorem tickDt_i (s : State) : (tickDt s).i = s.i := rfl
@[simp] theorem tickDt_pc (s : State) : (tickDt s).pc = s.pc := rfl
@[simp] theorem tickDt_stack (s : State) : (tickDt s).stack = s.stack := rfl
@[simp] theorem tickDt_dt (s : State) : (tickDt s).dt = tickCell s.dtRun s.dt := rfl
@[simp] theorem tickDt_st (s : State) : (tickDt s).st = s.st := rfl
@[simp] theorem tickDt_dtRun (s : State) : (tickDt s).dtRun = s.dtRun := rfl
@[simp] theorem tickDt_stRun (s : State) : (tickDt s).stRun = s.stRun := rfl
@[simp] theorem tickDt_fb (s : State) : (tickDt s).fb = s.fb := rfl
@[simp] theorem tickDt_mem (s : State) : (tickDt s).mem = s.mem := rfl
@[simp] theorem tickDt_phase (s : State) : (tickDt s).phase = s.phase := rfl
@[simp] theorem tickDt_faultRecord (s : State) : (tickDt s).faultRecord = s.faultRecord := rfl
@[simp] theorem tickDt_instant (s : State) : (tickDt s).instant = s.instant := rfl

/-! ## tickSt: sound-timer tick -/

@[simp] theorem tickSt_v (s : State) : (tickSt s).v = s.v := rfl
@[simp] theorem tickSt_i (s : State) : (tickSt s).i = s.i := rfl
@[simp] theorem tickSt_pc (s : State) : (tickSt s).pc = s.pc := rfl
@[simp] theorem tickSt_stack (s : State) : (tickSt s).stack = s.stack := rfl
@[simp] theorem tickSt_dt (s : State) : (tickSt s).dt = s.dt := rfl
@[simp] theorem tickSt_st (s : State) : (tickSt s).st = tickCell s.stRun s.st := rfl
@[simp] theorem tickSt_dtRun (s : State) : (tickSt s).dtRun = s.dtRun := rfl
@[simp] theorem tickSt_stRun (s : State) : (tickSt s).stRun = s.stRun := rfl
@[simp] theorem tickSt_fb (s : State) : (tickSt s).fb = s.fb := rfl
@[simp] theorem tickSt_mem (s : State) : (tickSt s).mem = s.mem := rfl
@[simp] theorem tickSt_phase (s : State) : (tickSt s).phase = s.phase := rfl
@[simp] theorem tickSt_faultRecord (s : State) : (tickSt s).faultRecord = s.faultRecord := rfl
@[simp] theorem tickSt_instant (s : State) : (tickSt s).instant = s.instant := rfl

/-! ## elapse: time between core steps -/

@[simp] theorem elapse_v (s : State) : (elapse s).v = s.v := rfl
@[simp] theorem elapse_i (s : State) : (elapse s).i = s.i := rfl
@[simp] theorem elapse_pc (s : State) : (elapse s).pc = s.pc := rfl
@[simp] theorem elapse_stack (s : State) : (elapse s).stack = s.stack := rfl
@[simp] theorem elapse_dt (s : State) : (elapse s).dt = afterTicks s.dtRun (Config.dtTicks s.instant) s.dt := rfl
@[simp] theorem elapse_st (s : State) : (elapse s).st = afterTicks s.stRun (Config.stTicks s.instant) s.st := rfl
@[simp] theorem elapse_dtRun (s : State) : (elapse s).dtRun = s.dtRun := rfl
@[simp] theorem elapse_stRun (s : State) : (elapse s).stRun = s.stRun := rfl
@[simp] theorem elapse_fb (s : State) : (elapse s).fb = s.fb := rfl
@[simp] theorem elapse_mem (s : State) : (elapse s).mem = s.mem := rfl
@[simp] theorem elapse_phase (s : State) : (elapse s).phase = s.phase := rfl
@[simp] theorem elapse_faultRecord (s : State) : (elapse s).faultRecord = s.faultRecord := rfl
@[simp] theorem elapse_instant (s : State) : (elapse s).instant = s.instant + 1 := rfl

/-! ## startDt: start of the delay timer -/

@[simp] theorem startDt_v (s : State) : (startDt s).v = s.v := rfl
@[simp] theorem startDt_i (s : State) : (startDt s).i = s.i := rfl
@[simp] theorem startDt_pc (s : State) : (startDt s).pc = s.pc := rfl
@[simp] theorem startDt_stack (s : State) : (startDt s).stack = s.stack := rfl
@[simp] theorem startDt_dt (s : State) : (startDt s).dt = s.dt := rfl
@[simp] theorem startDt_st (s : State) : (startDt s).st = s.st := rfl
@[simp] theorem startDt_dtRun (s : State) : (startDt s).dtRun = true := rfl
@[simp] theorem startDt_stRun (s : State) : (startDt s).stRun = s.stRun := rfl
@[simp] theorem startDt_fb (s : State) : (startDt s).fb = s.fb := rfl
@[simp] theorem startDt_mem (s : State) : (startDt s).mem = s.mem := rfl
@[simp] theorem startDt_phase (s : State) : (startDt s).phase = s.phase := rfl
@[simp] theorem startDt_faultRecord (s : State) : (startDt s).faultRecord = s.faultRecord := rfl
@[simp] theorem startDt_instant (s : State) : (startDt s).instant = s.instant := rfl

/-! ## startSt: start of the sound timer -/

@[simp] theorem startSt_v (s : State) : (startSt s).v = s.v := rfl
@[simp] theorem startSt_i (s : State) : (startSt s).i = s.i := rfl
@[simp] theorem startSt_pc (s : State) : (startSt s).pc = s.pc := rfl
@[simp] theorem startSt_stack (s : State) : (startSt s).stack = s.stack := rfl
@[simp] theorem startSt_dt (s : State) : (startSt s).dt = s.dt := rfl
@[simp] theorem startSt_st (s : State) : (startSt s).st = s.st := rfl
@[simp] theorem startSt_dtRun (s : State) : (startSt s).dtRun = s.dtRun := rfl
@[simp] theorem startSt_stRun (s : State) : (startSt s).stRun = true := rfl
@[simp] theorem startSt_fb (s : State) : (startSt s).fb = s.fb := rfl
@[simp] theorem startSt_mem (s : State) : (startSt s).mem = s.mem := rfl
@[simp] theorem startSt_phase (s : State) : (startSt s).phase = s.phase := rfl
@[simp] theorem startSt_faultRecord (s : State) : (startSt s).faultRecord = s.faultRecord := rfl
@[simp] theorem startSt_instant (s : State) : (startSt s).instant = s.instant := rfl

end Sys2Proof.Machine
end

