-- ==== Sys2Proof/Laws/Registers.lean ====
section
/-! SUPPORT. Registers, the flag writes and the stack. -/

namespace Sys2Proof.Machine

/-! ## Registers -/

@[simp] theorem State.reg_setReg_same (s : State) (r : Reg) (b : Byte) : (s.setReg r b).reg r = b := by
  simp [State.reg, State.setReg]

theorem State.reg_setReg_ne (s : State) (r q : Reg) (b : Byte) (h : q ≠ r) : (s.setReg r b).reg q = s.reg q := by
  have : r.toNat ≠ q.toNat := fun e => h (BitVec.eq_of_toNat_eq e.symm)
  simp [State.reg, State.setReg, this]

theorem State.reg_setReg (s : State) (r q : Reg) (b : Byte) : (s.setReg r b).reg q = if q = r then b else s.reg q := by
  split
  · subst q; simp
  · exact State.reg_setReg_ne s r q b ‹_›

/-- A register write leaves every field but `v` alone. -/
theorem State.setReg_frame (s : State) (r : Reg) (b : Byte) : { s.setReg r b with v := s.v } = s := rfl

theorem State.reg_congr {s t : State} (h : s.v = t.v) (r : Reg) : s.reg r = t.reg r := by simp [State.reg, h]

/-! ## Flag writes (spec/41_alu.md R153) -/

theorem writeFlagged_flagFirst (x : Reg) (b : Byte) (f : Bool) (s : State) :
    writeFlagged .flagFirst x b f s = (s.setReg 15 (flagByte f)).setReg x b := rfl

theorem writeFlagged_reg (x q : Reg) (b : Byte) (f : Bool) (s : State) :
    (writeFlagged .flagFirst x b f s).reg q = if q = x then b else if q = 15 then flagByte f else s.reg q := by
  rw [writeFlagged_flagFirst, State.reg_setReg, State.reg_setReg]

@[simp] theorem writeFlagged_result (x : Reg) (b : Byte) (f : Bool) (s : State) :
    (writeFlagged .flagFirst x b f s).reg x = b := by rw [writeFlagged_reg, if_pos rfl]

theorem writeFlagged_flag (x : Reg) (b : Byte) (f : Bool) (s : State) (h : x ≠ 15) :
    (writeFlagged .flagFirst x b f s).reg 15 = flagByte f := by
  rw [writeFlagged_reg, if_neg (Ne.symm h), if_pos rfl]

theorem writeFlagged_other (x q : Reg) (b : Byte) (f : Bool) (s : State) (h : q ≠ x) (h' : q ≠ 15) :
    (writeFlagged .flagFirst x b f s).reg q = s.reg q := by
  rw [writeFlagged_reg, if_neg h, if_neg h']

/-- Whatever the order, only registers are written. -/
theorem writeFlagged_frame (o : FlagOrder) (x : Reg) (b : Byte) (f : Bool) (s : State) :
    { writeFlagged o x b f s with v := s.v } = s := by cases o <;> rfl

theorem writeLogic_keepsFlag (o : FlagOrder) (x : Reg) (b : Byte) (s : State) :
    writeLogic false o x b s = s.setReg x b := rfl

/-! ## The stack (spec/10_state.md R28, R29) -/

/-- Everything a push can do. -/
theorem push_cases (a : Word) (s : State) :
    (16 ≤ s.sp ∧ push a s = none) ∨ (s.sp < 16 ∧ push a s = some { s with stack := a :: s.stack }) := by
  unfold push; split <;> simp_all

/-- Everything a pop can do. -/
theorem pop_cases (s : State) :
    (s.stack = [] ∧ pop s = none) ∨ (∃ a rest, s.stack = a :: rest ∧ pop s = some (a, { s with stack := rest })) := by
  unfold pop; cases h : s.stack <;> simp

end Sys2Proof.Machine
end

