-- ==== Sys2Proof/Laws/Display.lean ====
section
/-! SUPPORT. The blit cell by cell (spec/43_display.md R192). -/

namespace Sys2Proof.Machine

@[simp] theorem cell_blank (row : Fin 32) (col : Fin 64) : cell FrameBuffer.blank row col = false := by
  simp [cell, FrameBuffer.blank]

theorem cell_setCell (fb : FrameBuffer) (row row' : Fin 32) (col col' : Fin 64) (b : Bool) :
    cell (setCell fb row col b) row' col' = if row' = row ∧ col' = col then b else cell fb row' col' := by
  by_cases hr : row = row'
  · subst hr
    by_cases hc : col = col'
    · subst hc; simp [cell, setCell]
    · have : col.val ≠ col'.val := fun e => hc (Fin.ext e)
      have hc' : col' ≠ col := fun e => hc e.symm
      simp [cell, setCell, this, hc']
  · have : row.val ≠ row'.val := fun e => hr (Fin.ext e)
    have hr' : row' ≠ row := fun e => hr e.symm
    simp [cell, setCell, this, hr']

/-- Two framebuffers with the same cells are equal. -/
theorem FrameBuffer.ext_cell (f g : FrameBuffer) (h : ∀ row col, cell f row col = cell g row col) : f = g := by
  apply Vector.ext; intro r hr
  apply Vector.ext; intro c hc
  exact h ⟨r, hr⟩ ⟨c, hc⟩

/-- One pixel: the named cell is XORed with the bit, every other cell is as before. -/
theorem xorCell_cell (row row' : Fin 32) (col col' : Fin 64) (bit : Bool) (d : FrameBuffer × Bool) :
    cell (xorCell row col bit d).1 row' col' = (cell d.1 row' col' ^^ (decide (row' = row ∧ col' = col) && bit)) := by
  simp only [xorCell, cell_setCell]
  by_cases h : row' = row ∧ col' = col
  · obtain ⟨rfl, rfl⟩ := h; simp
  · simp [h]

/-- One pixel collides exactly when the bit and the cell are both set. -/
theorem xorCell_collision (row : Fin 32) (col : Fin 64) (bit : Bool) (d : FrameBuffer × Bool) :
    (xorCell row col bit d).2 = (d.2 || (cell d.1 row col && bit)) := by
  simp only [xorCell]; cases cell d.1 row col <;> cases bit <;> simp

/-- The first `m` columns of a sprite byte, cell by cell. -/
theorem xorBits_cell (cx : Nat) (row : Fin 32) (b : Byte) (d : FrameBuffer × Bool) (m : Nat) (hm : m ≤ 8) (r' : Fin 32) (c' : Fin 64) :
   let e := (List.range m).foldl (fun d c => xorCell row (Fin.ofNat 64 (cx + c)) (b.getLsbD (7 - c)) d) d
   (cell e.1 r' c' = true ↔ (cell d.1 r' c' = true ∧ ¬ (∃ c < m, r' = row ∧ c'.val = (cx + c) % 64 ∧ b.getLsbD (7-c) = true)) ∨
      (cell d.1 r' c' = false ∧ (∃ c < m, r' = row ∧ c'.val = (cx + c) % 64 ∧ b.getLsbD (7-c) = true))) := by
  induction m with
  | zero => simp
  | succ m ih =>
    have ih := ih (by omega)
    simp only [List.range_succ, List.foldl_append, List.foldl_cons, List.foldl_nil] at ih ⊢
    rw [xorCell_cell]
    generalize (List.range m).foldl (fun d c => xorCell row (Fin.ofNat 64 (cx + c)) (b.getLsbD (7 - c)) d) d = e at ih ⊢
    have hval : (c' = Fin.ofNat 64 (cx + m)) ↔ c'.val = (cx + m) % 64 := by
      rw [Fin.ext_iff]; rfl
    have hsplit : (∃ c < m + 1, r' = row ∧ c'.val = (cx + c) % 64 ∧ b.getLsbD (7-c) = true) ↔
        (∃ c < m, r' = row ∧ c'.val = (cx + c) % 64 ∧ b.getLsbD (7-c) = true) ∨ (r' = row ∧ c'.val = (cx + m) % 64 ∧ b.getLsbD (7-m) = true) := by
      constructor
      · rintro ⟨c, hc, h⟩
        by_cases hcm : c = m
        · subst hcm; exact .inr h
        · exact .inl ⟨c, by omega, h⟩
      · rintro (⟨c, hc, h⟩ | h)
        · exact ⟨c, by omega, h⟩
        · exact ⟨m, by omega, h⟩
    rw [hsplit]
    by_cases hthis : r' = row ∧ c'.val = (cx + m) % 64
    · have hno : ¬ ∃ c < m, r' = row ∧ c'.val = (cx + c) % 64 ∧ b.getLsbD (7-c) = true := by
        rintro ⟨c, hc, _, hcc, _⟩; have := hthis.2; omega
      rw [show decide (r' = row ∧ c' = Fin.ofNat 64 (cx + m)) = true from decide_eq_true ⟨hthis.1, hval.2 hthis.2⟩]
      simp only [hno, not_false_eq_true, and_true, and_false, or_false, false_or] at ih ⊢
      have : cell e.1 r' c' = cell d.1 r' c' := by
        cases h1 : cell e.1 r' c' <;> cases h2 : cell d.1 r' c' <;> simp_all
      rw [this]; cases cell d.1 r' c' <;> cases b.getLsbD (7 - m) <;> simp [hthis]
    · rw [show decide (r' = row ∧ c' = Fin.ofNat 64 (cx + m)) = false from decide_eq_false (fun h => hthis ⟨h.1, hval.1 h.2⟩)]
      have : ¬ (r' = row ∧ c'.val = (cx + m) % 64 ∧ b.getLsbD (7-m) = true) := fun h => hthis ⟨h.1, h.2.1⟩
      simp only [Bool.false_and, Bool.xor_false, this, or_false]
      exact ih

/-- The first `m` columns of a sprite byte collide exactly where a set bit meets a set cell. -/
theorem xorBits_collision (cx : Nat) (row : Fin 32) (b : Byte) (d : FrameBuffer × Bool) (m : Nat) (hm : m ≤ 8) :
   let e := (List.range m).foldl (fun d c => xorCell row (Fin.ofNat 64 (cx + c)) (b.getLsbD (7 - c)) d) d
   (e.2 = true ↔ d.2 = true ∨ ∃ c < m, cell d.1 row (Fin.ofNat 64 (cx + c)) = true ∧ b.getLsbD (7-c) = true) := by
  induction m with
  | zero => simp
  | succ m ih =>
    have ih := ih (by omega)
    have hr := xorBits_cell cx row b d m (by omega) row (Fin.ofNat 64 (cx + m))
    simp only [List.range_succ, List.foldl_append, List.foldl_cons, List.foldl_nil] at ih ⊢
    dsimp only at hr
    rw [xorCell_collision]
    generalize (List.range m).foldl (fun d c => xorCell row (Fin.ofNat 64 (cx + c)) (b.getLsbD (7 - c)) d) d = e at ih hr ⊢
    have hno : ¬ ∃ c < m, True ∧ (Fin.ofNat 64 (cx + m)).val = (cx + c) % 64 ∧ b.getLsbD (7-c) = true := by
      rintro ⟨c, hc, _, hcc, _⟩
      have : (cx + m) % 64 = (cx + c) % 64 := hcc
      omega
    simp only [hno, not_false_eq_true, and_true, and_false, or_false] at hr
    rw [Bool.or_eq_true, Bool.and_eq_true, ih, hr]
    constructor
    · rintro ((h | ⟨c, hc, h⟩) | h)
      · exact .inl h
      · exact .inr ⟨c, by omega, h⟩
      · exact .inr ⟨m, by omega, h⟩
    · rintro (h | ⟨c, hc, h⟩)
      · exact .inl (.inl h)
      · by_cases hcm : c = m
        · subst hcm; exact .inr h
        · exact .inl (.inr ⟨c, by omega, h⟩)

/-- One sprite byte: the cells of its row under a set bit are toggled, every other cell is as before. -/
theorem blitByte_cell (cx : Nat) (row : Fin 32) (b : Byte) (d : FrameBuffer × Bool) (r' : Fin 32) (c' : Fin 64) :
    cell (blitByte cx row b d).1 r' c' = true ↔
      (cell d.1 r' c' = true ∧ ¬ ∃ c < 8, r' = row ∧ c'.val = (cx + c) % 64 ∧ b.getLsbD (7 - c) = true) ∨
      (cell d.1 r' c' = false ∧ ∃ c < 8, r' = row ∧ c'.val = (cx + c) % 64 ∧ b.getLsbD (7 - c) = true) :=
  xorBits_cell cx row b d 8 (Nat.le_refl _) r' c'

/-- One sprite byte collides exactly where a set bit meets a set cell. -/
theorem blitByte_collision (cx : Nat) (row : Fin 32) (b : Byte) (d : FrameBuffer × Bool) :
    (blitByte cx row b d).2 = true ↔
      d.2 = true ∨ ∃ c < 8, cell d.1 row (Fin.ofNat 64 (cx + c)) = true ∧ b.getLsbD (7 - c) = true :=
  xorBits_collision cx row b d 8 (Nat.le_refl _)

end Sys2Proof.Machine
end

