-- ==== Sys2Proof/Laws/Memory.lean ====
section
/-! SUPPORT. Memory: a read after a write, and that every operation keeps the canonical form. -/

namespace Sys2Proof.Machine

/-! ## Reading -/

theorem Memory.read_erase (m : Memory) (a b : Nat) :
    (m.erase a).read b = if b = a then Memory.unlisted else m.read b := by
  induction m with
  | nil => simp [Memory.erase, Memory.read]
  | cons c m ih =>
    obtain ⟨d, x⟩ := c
    unfold Memory.erase at ih ⊢
    by_cases hd : d = a
    · subst hd
      rw [List.filter_cons_of_neg (by simp), ih]
      by_cases hb : b = d <;> simp [Memory.read, hb]
    · rw [List.filter_cons_of_pos (by simpa using hd)]
      by_cases hb : b = d
      · subst hb; simp [Memory.read, hd]
      · simp [Memory.read, hb, ih]

theorem Memory.read_insert (m : Memory) (a b : Nat) (v : Byte) (h : ∀ c ∈ m, c.1 ≠ a) :
    (m.insert a v).read b = if b = a then v else m.read b := by
  induction m with
  | nil => rfl
  | cons c m ih =>
    obtain ⟨d, x⟩ := c
    have hd : d ≠ a := h (d, x) (by simp)
    have ih := ih (fun c hc => h c (by simp [hc]))
    unfold Memory.insert
    split
    · by_cases hb : b = a <;> simp [Memory.read, hb]
    · by_cases hb : b = d
      · subst hb; simp [Memory.read, hd]
      · simp [Memory.read, hb, ih]

theorem Memory.mem_erase_ne (m : Memory) (a : Nat) : ∀ c ∈ m.erase a, c.1 ≠ a := by
  intro c hc; simpa using (List.mem_filter.1 hc).2

/-- A read after a write: the written cell has the value, every other is as before. -/
theorem Memory.read_write (m : Memory) (a b : Nat) (v : Byte) :
    (m.write a v).read b = if b = a then v else m.read b := by
  unfold Memory.write
  split
  · rename_i hv; rw [Memory.read_erase, hv]
  · rw [Memory.read_insert _ _ _ _ (Memory.mem_erase_ne m a), Memory.read_erase]
    split <;> rfl

/-! ## The canonical form -/

theorem Memory.wf_cons (a : Nat) (v : Byte) (m : Memory) :
    Memory.wf ((a, v) :: m) = true ↔ a < 4096 ∧ v ≠ Memory.unlisted ∧ (∀ c ∈ m, a < c.1) ∧ m.wf = true := by
  simp [Memory.wf, and_assoc]

theorem Memory.erase_wf (m : Memory) (a : Nat) (h : m.wf = true) : (m.erase a).wf = true := by
  induction m with
  | nil => rfl
  | cons c m ih =>
    obtain ⟨d, x⟩ := c
    obtain ⟨hd, hx, hrise, hm⟩ := (Memory.wf_cons d x m).1 h
    have ih := ih hm
    unfold Memory.erase at ih ⊢
    by_cases hda : d = a
    · rwa [List.filter_cons_of_neg (by simp [hda])]
    · rw [List.filter_cons_of_pos (by simpa using hda)]
      exact (Memory.wf_cons d x _).2 ⟨hd, hx, fun c hc => hrise c (List.mem_filter.1 hc).1, ih⟩

theorem Memory.mem_insert (m : Memory) (a : Nat) (v : Byte) (c : Host.Cell) (h : c ∈ m.insert a v) :
    c = (a, v) ∨ c ∈ m := by
  induction m with
  | nil => simpa [Memory.insert] using h
  | cons e m ih =>
    obtain ⟨d, x⟩ := e
    unfold Memory.insert at h
    split at h
    · simpa using h
    · rcases List.mem_cons.1 h with rfl | h
      · simp
      · rcases ih h with h | h <;> simp [h]

theorem Memory.insert_wf (m : Memory) (a : Nat) (v : Byte) (ha : a < 4096) (hv : v ≠ Memory.unlisted)
    (hne : ∀ c ∈ m, c.1 ≠ a) (h : m.wf = true) : (m.insert a v).wf = true := by
  induction m with
  | nil => exact (Memory.wf_cons a v []).2 ⟨ha, hv, by simp, rfl⟩
  | cons c m ih =>
    obtain ⟨d, x⟩ := c
    obtain ⟨hd, hx, hrise, hm⟩ := (Memory.wf_cons d x m).1 h
    have hda : d ≠ a := hne (d, x) (by simp)
    unfold Memory.insert
    split
    · rename_i had
      refine (Memory.wf_cons a v _).2 ⟨ha, hv, ?_, h⟩
      intro c hc
      rcases List.mem_cons.1 hc with rfl | hc
      · exact had
      · exact Nat.lt_trans had (hrise c hc)
    · refine (Memory.wf_cons d x _).2 ⟨hd, hx, ?_, ih (fun c hc => hne c (by simp [hc])) hm⟩
      intro c hc
      rcases Memory.mem_insert m a v c hc with rfl | hc
      · show d < a; omega
      · exact hrise c hc

/-- A write inside the 4096 bytes keeps the canonical form. -/
theorem Memory.write_wf (m : Memory) (a : Nat) (v : Byte) (ha : a < 4096) (h : m.wf = true) :
    (m.write a v).wf = true := by
  unfold Memory.write
  split
  · exact Memory.erase_wf m a h
  · exact Memory.insert_wf _ a v ha ‹_› (Memory.mem_erase_ne m a) (Memory.erase_wf m a h)

theorem State.reset_wf : State.reset.mem.wf = true := rfl

/-! ## The guard -/

theorem inRange_iff (a : Nat) : inRange a = true ↔ 512 ≤ a ∧ a < 4096 := by simp [inRange]

theorem inRange_eq_false_iff (a : Nat) : inRange a = false ↔ a < 512 ∨ 4096 ≤ a := by
  rw [← Bool.not_eq_true, inRange_iff]; omega

theorem memRead_of_inRange {a : Nat} (s : State) (h : inRange a = true) : memRead a s = some (s.peek a) := by
  simp [memRead, h]

theorem memRead_eq_none_iff (a : Nat) (s : State) : memRead a s = none ↔ inRange a = false := by
  simp [memRead]

theorem memRead_eq_some_iff (a : Nat) (s : State) (b : Byte) :
    memRead a s = some b ↔ inRange a = true ∧ s.peek a = b := by
  simp [memRead]

/-- Everything a guarded write can do: refuse, or change the one cell and no other field. -/
theorem memWrite_cases (a : Nat) (v : Byte) (s : State) :
    (inRange a = false ∧ memWrite a v s = none) ∨
    (inRange a = true ∧ memWrite a v s = some { s with mem := s.mem.write a v }) := by
  unfold memWrite; cases h : inRange a <;> simp

end Sys2Proof.Machine
end

