-- ==== Sys2Proof/Laws/Ops.lean ====
section
/-! SUPPORT. Runs of guarded accesses: what each can do, said once (spec/20_memory.md R70). -/

namespace Sys2Proof.Machine

/-! ## Reads -/

theorem readBytes_ok (s : State) (a n : Nat) (h : ∀ j < n, inRange (a + j) = true) :
    readBytes s a n = .ok ((List.range n).map (fun j => s.peek (a + j))) := by
  induction n generalizing a with
  | zero => rfl
  | succ n ih =>
    have h0 : memRead a s = some (s.peek a) := memRead_of_inRange s (by simpa using h 0 (by omega))
    have ih := ih (a + 1) (fun j hj => by simpa [Nat.add_assoc, Nat.add_comm 1 j] using h (j + 1) (by omega))
    simp only [readBytes, h0, ih, List.range_succ_eq_map, List.map_cons, List.map_map, Nat.add_zero]
    congr 2
    apply List.map_congr_left
    intro j _; simp [Nat.add_assoc, Nat.add_comm 1 j]

theorem readBytes_refused (s : State) (a n k : Nat) (hk : k < n) (h : ∀ j < k, inRange (a + j) = true)
    (hr : inRange (a + k) = false) : readBytes s a n = .error (a + k) := by
  induction n generalizing a k with
  | zero => omega
  | succ n ih =>
    cases k with
    | zero =>
      have : memRead a s = none := (memRead_eq_none_iff a s).2 (by simpa using hr)
      simp [readBytes, this]
    | succ k =>
      have h0 : memRead a s = some (s.peek a) := memRead_of_inRange s (by simpa using h 0 (by omega))
      have ih := ih (a + 1) k (by omega)
        (fun j hj => by simpa [Nat.add_assoc, Nat.add_comm 1 j] using h (j + 1) (by omega))
        (by simpa [Nat.add_assoc, Nat.add_comm 1 k] using hr)
      simp [readBytes, h0, ih, Nat.add_assoc, Nat.add_comm 1 k]

/-! ## Stores -/

/-- A run of stores touches nothing but memory. -/
theorem storeBytes_frame (a : Nat) (bs : List Byte) (s : State) :
    (storeBytes a bs s).1 = { s with mem := (storeBytes a bs s).1.mem } := by
  induction bs generalizing a s with
  | nil => rfl
  | cons b bs ih =>
    unfold storeBytes
    rcases memWrite_cases a b s with ⟨_, h⟩ | ⟨_, h⟩ <;> rw [h]
    exact ih (a + 1) _

/-- A run of stores keeps the canonical form. -/
theorem storeBytes_wf (a : Nat) (bs : List Byte) (s : State) (h : s.mem.wf = true) :
    (storeBytes a bs s).1.mem.wf = true := by
  induction bs generalizing a s with
  | nil => exact h
  | cons b bs ih =>
    unfold storeBytes
    rcases memWrite_cases a b s with ⟨_, hw⟩ | ⟨hr, hw⟩ <;> rw [hw]
    · exact h
    · exact ih (a + 1) _ (Memory.write_wf _ a b ((inRange_iff a).1 hr).2 h)

/-- A cell below a run is not touched by it. -/
theorem storeBytes_below (a c : Nat) (bs : List Byte) (s : State) (hc : c < a) :
    (storeBytes a bs s).1.peek c = s.peek c := by
  induction bs generalizing a s with
  | nil => rfl
  | cons b bs ih =>
    unfold storeBytes
    rcases memWrite_cases a b s with ⟨_, hw⟩ | ⟨_, hw⟩ <;> rw [hw]
    rw [ih (a + 1) _ (by omega)]
    simp [State.peek, Memory.read_write, Nat.ne_of_lt hc]

/-- A run of which every address is allowed is done, the j-th byte at `a + j` and every other cell as before. -/
theorem storeBytes_ok (a : Nat) (bs : List Byte) (s : State) (h : ∀ j < bs.length, inRange (a + j) = true) :
    (storeBytes a bs s).2 = none ∧
    (∀ (j : Nat) (hj : j < bs.length), (storeBytes a bs s).1.peek (a + j) = bs[j]) ∧
    (∀ c, (∀ j < bs.length, c ≠ a + j) → (storeBytes a bs s).1.peek c = s.peek c) := by
  induction bs generalizing a s with
  | nil => simp [storeBytes]
  | cons b bs ih =>
    have h0 : inRange a = true := by simpa using h 0 (by simp)
    have hw : memWrite a b s = some { s with mem := s.mem.write a b } := by simp [memWrite, h0]
    obtain ⟨i1, i2, i3⟩ := ih (a + 1) { s with mem := s.mem.write a b }
      (fun j hj => by simpa [Nat.add_assoc, Nat.add_comm 1 j] using h (j + 1) (by simp; omega))
    unfold storeBytes; rw [hw]
    refine ⟨i1, ?_, ?_⟩
    · intro j hj
      cases j with
      | zero =>
        simp only [Nat.add_zero, List.getElem_cons_zero]
        rw [storeBytes_below (a + 1) a bs _ (by omega)]
        simp [State.peek, Memory.read_write]
      | succ j =>
        have := i2 j (by simpa using hj)
        simpa [Nat.add_assoc, Nat.add_comm 1 j] using this
    · intro c hc
      rw [i3 c (fun j hj => by
        have := hc (j + 1) (by simp; omega)
        omega)]
      have : c ≠ a := by simpa using hc 0 (by simp)
      simp [State.peek, Memory.read_write, this]

/-- A run refused at its k-th address: the bytes before it are stored, every other cell is as before. -/
theorem storeBytes_refused (a : Nat) (bs : List Byte) (s : State) (k : Nat) (hk : k < bs.length)
    (h : ∀ j < k, inRange (a + j) = true) (hr : inRange (a + k) = false) :
    (storeBytes a bs s).2 = some (a + k) ∧
    (∀ (j : Nat) (hj : j < k), (storeBytes a bs s).1.peek (a + j) = bs[j]) ∧
    (∀ c, (∀ j < k, c ≠ a + j) → (storeBytes a bs s).1.peek c = s.peek c) := by
  induction bs generalizing a s k with
  | nil => simp at hk
  | cons b bs ih =>
    cases k with
    | zero =>
      have hw : memWrite a b s = none := by simpa [memWrite] using hr
      unfold storeBytes; rw [hw]; simp
    | succ k =>
      have h0 : inRange a = true := by simpa using h 0 (by omega)
      have hw : memWrite a b s = some { s with mem := s.mem.write a b } := by simp [memWrite, h0]
      obtain ⟨i1, i2, i3⟩ := ih (a + 1) { s with mem := s.mem.write a b } k (by simpa using hk)
        (fun j hj => by simpa [Nat.add_assoc, Nat.add_comm 1 j] using h (j + 1) (by omega))
        (by simpa [Nat.add_assoc, Nat.add_comm 1 k] using hr)
      unfold storeBytes; rw [hw]
      refine ⟨by simpa [Nat.add_assoc, Nat.add_comm 1 k] using i1, ?_, ?_⟩
      · intro j hj
        cases j with
        | zero =>
          simp only [Nat.add_zero, List.getElem_cons_zero]
          rw [storeBytes_below (a + 1) a bs _ (by omega)]
          simp [State.peek, Memory.read_write]
        | succ j =>
          have := i2 j (by omega)
          simpa [Nat.add_assoc, Nat.add_comm 1 j] using this
      · intro c hc
        rw [i3 c (fun j hj => by
          have := hc (j + 1) (by omega)
          omega)]
        have : c ≠ a := by simpa using hc 0 (by omega)
        simp [State.peek, Memory.read_write, this]

/-! ## Register loads -/

/-- A run of loads touches nothing but registers. -/
theorem loadRegs_frame (base k n : Nat) (s : State) :
    (loadRegs base k n s).1 = { s with v := (loadRegs base k n s).1.v } := by
  induction n generalizing k s with
  | zero => rfl
  | succ n ih =>
    unfold loadRegs
    cases memRead (base + k) s with
    | none => rfl
    | some b => exact ih (k + 1) _

theorem ofNat4_toNat (k : Nat) (h : k < 16) : (BitVec.ofNat 4 k).toNat = k := by
  simp only [BitVec.toNat_ofNat]; omega

theorem ofNat4_ne (q : Reg) (k : Nat) (hk : k < 16) (h : q.toNat ≠ k) : q ≠ BitVec.ofNat 4 k := by
  intro e; subst e; exact h (ofNat4_toNat k hk)

/-- Registers `k` … `k + n − 1` are loaded from `base + k` on and every other register is as before, when every address
is allowed. -/
theorem loadRegs_ok (base k n : Nat) (s : State) (hn : k + n ≤ 16) (h : ∀ j, k ≤ j → j < k + n → inRange (base + j) = true) :
    (loadRegs base k n s).2 = none ∧
    (∀ q : Reg, (loadRegs base k n s).1.reg q =
      if k ≤ q.toNat ∧ q.toNat < k + n then s.peek (base + q.toNat) else s.reg q) := by
  induction n generalizing k s with
  | zero => simp [loadRegs]
  | succ n ih =>
    have h0 : memRead (base + k) s = some (s.peek (base + k)) := memRead_of_inRange s (h k (by omega) (by omega))
    obtain ⟨i1, i2⟩ := ih (k + 1) (s.setReg (BitVec.ofNat 4 k) (s.peek (base + k))) (by omega)
      (fun j h1 h2 => h j (by omega) (by omega))
    unfold loadRegs; rw [h0]
    refine ⟨i1, fun q => ?_⟩
    show (loadRegs base (k + 1) n (s.setReg (BitVec.ofNat 4 k) (s.peek (base + k)))).1.reg q = _
    rw [i2 q]
    have hp : ∀ c, (s.setReg (BitVec.ofNat 4 k) (s.peek (base + k))).peek c = s.peek c := fun _ => rfl
    by_cases hq : q.toNat = k
    · have : q = BitVec.ofNat 4 k := BitVec.eq_of_toNat_eq (by rw [ofNat4_toNat k (by omega), hq])
      rw [if_neg (by omega), if_pos (by omega), this, State.reg_setReg_same, ofNat4_toNat k (by omega)]
    · rw [hp, State.reg_setReg_ne _ _ _ _ (ofNat4_ne q k (by omega) hq)]
      by_cases h1 : k + 1 ≤ q.toNat ∧ q.toNat < k + 1 + n
      · rw [if_pos h1, if_pos (by omega)]
      · rw [if_neg h1, if_neg (by omega)]

/-- A run of loads refused at `base + m`: the registers before it are loaded, the others are as before. -/
theorem loadRegs_refused (base k n m : Nat) (s : State) (hn : k + n ≤ 16) (hm : k ≤ m ∧ m < k + n)
    (h : ∀ j, k ≤ j → j < m → inRange (base + j) = true) (hr : inRange (base + m) = false) :
    (loadRegs base k n s).2 = some (base + m) ∧
    (∀ q : Reg, (loadRegs base k n s).1.reg q =
      if k ≤ q.toNat ∧ q.toNat < m then s.peek (base + q.toNat) else s.reg q) := by
  induction n generalizing k s with
  | zero => omega
  | succ n ih =>
    by_cases hkm : k = m
    · subst hkm
      have : memRead (base + k) s = none := (memRead_eq_none_iff _ s).2 hr
      unfold loadRegs; rw [this]
      refine ⟨rfl, fun q => ?_⟩
      show s.reg q = _
      rw [if_neg (by omega)]
    · have h0 : memRead (base + k) s = some (s.peek (base + k)) := memRead_of_inRange s (h k (by omega) (by omega))
      obtain ⟨i1, i2⟩ := ih (k + 1) (s.setReg (BitVec.ofNat 4 k) (s.peek (base + k))) (by omega) (by omega)
        (fun j h1 h2 => h j (by omega) (by omega))
      unfold loadRegs; rw [h0]
      refine ⟨i1, fun q => ?_⟩
      show (loadRegs base (k + 1) n (s.setReg (BitVec.ofNat 4 k) (s.peek (base + k)))).1.reg q = _
      rw [i2 q]
      have hp : ∀ c, (s.setReg (BitVec.ofNat 4 k) (s.peek (base + k))).peek c = s.peek c := fun _ => rfl
      by_cases hq : q.toNat = k
      · have : q = BitVec.ofNat 4 k := BitVec.eq_of_toNat_eq (by rw [ofNat4_toNat k (by omega), hq])
        rw [if_neg (by omega), if_pos (by omega), this, State.reg_setReg_same, ofNat4_toNat k (by omega)]
      · rw [hp, State.reg_setReg_ne _ _ _ _ (ofNat4_ne q k (by omega) hq)]
        by_cases h1 : k + 1 ≤ q.toNat ∧ q.toNat < m
        · rw [if_pos h1, if_pos (by omega)]
        · rw [if_neg h1, if_neg (by omega)]

/-! ## The end of a run -/

theorem finishRun_done (i : Instr) (p : State × Option Nat) (h : p.2 = none) : finishRun i p = p.1 := by
  obtain ⟨s, o⟩ := p; subst h; rfl

theorem finishRun_refused (i : Instr) (p : State × Option Nat) (a : Nat) (h : p.2 = some a) :
    finishRun i p = raiseAt .memoryOutOfRange (some a) (encode i) p.1 := by
  obtain ⟨s, o⟩ := p; subst h; rfl

/-- With I unchanged there is no update. -/
theorem bumpIndex_unchanged (x : Reg) (p : State × Option Nat) : bumpIndex .unchanged x p = p := by
  obtain ⟨s, a⟩ := p; cases a <;> rfl

@[simp] theorem bumpIndex_refusal (how : MemopsIncI) (x : Reg) (p : State × Option Nat) : (bumpIndex how x p).2 = p.2 := by
  obtain ⟨s, a⟩ := p; cases a <;> rfl

/-- The update touches nothing but I. -/
theorem bumpIndex_frame (how : MemopsIncI) (x : Reg) (p : State × Option Nat) :
    (bumpIndex how x p).1 = { p.1 with i := (bumpIndex how x p).1.i } := by
  obtain ⟨s, a⟩ := p; cases a <;> rfl

/-! ## Raw placing -/

/-- Placing bytes past the guard touches nothing but memory. -/
theorem placeBytes_frame (a : Nat) (bs : List Byte) (s : State) :
    placeBytes a bs s = { s with mem := (placeBytes a bs s).mem } := by
  induction bs generalizing a s with
  | nil => rfl
  | cons b bs ih => exact ih (a + 1) _

theorem placeBytes_wf (a : Nat) (bs : List Byte) (s : State) (ha : a + bs.length ≤ 4096) (h : s.mem.wf = true) :
    (placeBytes a bs s).mem.wf = true := by
  induction bs generalizing a s with
  | nil => exact h
  | cons b bs ih =>
    simp only [List.length_cons] at ha
    exact ih (a + 1) _ (by omega) (Memory.write_wf _ a b (by omega) h)

/-- A placed byte reads back, and every cell not placed on is as before. -/
theorem placeBytes_ok (a : Nat) (bs : List Byte) (s : State) :
    (∀ (j : Nat) (hj : j < bs.length), (placeBytes a bs s).peek (a + j) = bs[j]) ∧
    (∀ c, (∀ j < bs.length, c ≠ a + j) → (placeBytes a bs s).peek c = s.peek c) := by
  induction bs generalizing a s with
  | nil => simp [placeBytes]
  | cons b bs ih =>
    obtain ⟨i1, i2⟩ := ih (a + 1) { s with mem := s.mem.write a b }
    refine ⟨fun j hj => ?_, fun c hc => ?_⟩
    · unfold placeBytes
      cases j with
      | zero => simp only [Nat.add_zero, List.getElem_cons_zero]; rw [i2 a (fun j _ => by omega)]; simp [State.peek, Memory.read_write]
      | succ j => have := i1 j (by simpa using hj); simpa [Nat.add_assoc, Nat.add_comm 1 j] using this
    · unfold placeBytes
      rw [i2 c (fun j hj => by have := hc (j+1) (by simp; omega); omega)]
      have := hc 0 (by simp)
      simp [State.peek, Memory.read_write]; intro e; omega

/-! ## Where a run is refused -/

/-- Of a run of addresses either all are allowed or one is the first refused. -/
theorem exists_first_refused (base n : Nat) : (∀ j < n, inRange (base + j) = true) ∨
    ∃ k, k < n ∧ inRange (base + k) = false ∧ ∀ j < k, inRange (base + j) = true := by
  induction n with
  | zero => left; intro j hj; omega
  | succ n ih =>
    rcases ih with h | ⟨k, h1, h2, h3⟩
    · cases hn : inRange (base + n)
      · exact .inr ⟨n, by omega, hn, h⟩
      · refine .inl fun j hj => ?_
        by_cases e : j = n
        · rw [e]; exact hn
        · exact h j (by omega)
    · exact .inr ⟨k, by omega, h2, h3⟩

/-- A refused run of stores names an address of the run that the guard refuses. -/
theorem storeBytes_refuses (a : Nat) (bs : List Byte) (s : State) (c : Nat) (h : (storeBytes a bs s).2 = some c) :
   inRange c = false ∧ c < a + bs.length := by
  rcases exists_first_refused a bs.length with h1 | ⟨k, h1, h2, h3⟩
  · rw [(storeBytes_ok a bs s h1).1] at h; cases h
  · rw [(storeBytes_refused a bs s k h1 h3 h2).1] at h; cases h; exact ⟨h2, by omega⟩

/-- A refused run of loads names an address of the run that the guard refuses. -/
theorem loadRegs_refuses (a n : Nat) (s : State) (c : Nat) (hn : n ≤ 16) (h : (loadRegs a 0 n s).2 = some c) :
   inRange c = false ∧ c < a + n := by
  rcases exists_first_refused a n with h1 | ⟨k, h1, h2, h3⟩
  · rw [(loadRegs_ok a 0 n s (by omega) (fun j _ hj => h1 j (by omega))).1] at h; cases h
  · rw [(loadRegs_refused a 0 n k s (by omega) ⟨by omega, by omega⟩ (fun j _ hj => h3 j hj) h2).1] at h; cases h; exact ⟨h2, by omega⟩

/-- A refused run of reads names an address of the run that the guard refuses. -/
theorem readBytes_refuses (a n : Nat) (s : State) (c : Nat) (h : readBytes s a n = .error c) :
   inRange c = false ∧ c < a + n := by
  rcases exists_first_refused a n with h1 | ⟨k, h1, h2, h3⟩
  · rw [readBytes_ok s a n h1] at h; cases h
  · rw [readBytes_refused s a n k h1 h3 h2] at h; cases h; exact ⟨h2, by omega⟩

/-- A cell that a run of stores changes is one of the run that the guard allows. -/
theorem storeBytes_changes (a : Nat) (bs : List Byte) (s : State) (c : Nat) (h : (storeBytes a bs s).1.peek c ≠ s.peek c) :
   a ≤ c ∧ c < a + bs.length ∧ inRange c = true := by
  rcases exists_first_refused a bs.length with h1 | ⟨k, h1, h2, h3⟩
  · have := (storeBytes_ok a bs s h1).2.2 c
    by_contra hc
    apply h; apply this; rintro j hj rfl; exact hc ⟨by omega, by omega, h1 j hj⟩
  · have := (storeBytes_refused a bs s k h1 h3 h2).2.2 c
    by_contra hc
    apply h; apply this; rintro j hj rfl; exact hc ⟨by omega, by omega, h3 j hj⟩

/-! ## The operands of the block transfers -/

@[simp] theorem bcdDigits_length (b : Byte) : (bcdDigits b).length = 3 := rfl

@[simp] theorem regBytes_length (x : Reg) (s : State) : (regBytes x s).length = x.toNat + 1 := by simp [regBytes]

theorem regBytes_getElem (x : Reg) (s : State) (j : Nat) (h : j < (regBytes x s).length) :
    (regBytes x s)[j] = s.reg (BitVec.ofNat 4 j) := by simp [regBytes]

/-- The end of a run changes nothing but the phase and the fault record. -/
theorem finishRun_frame (i : Instr) (p : State × Option Nat) :
    finishRun i p = { p.1 with phase := (finishRun i p).phase, faultRecord := (finishRun i p).faultRecord } := by
  obtain ⟨s, o⟩ := p; cases o <;> rfl

/-- Everything the end of a run can do. -/
theorem finishRun_cases (i : Instr) (p : State × Option Nat) :
    (p.2 = none ∧ finishRun i p = p.1) ∨
    ∃ a, p.2 = some a ∧ finishRun i p = raiseAt .memoryOutOfRange (some a) (encode i) p.1 := by
  obtain ⟨s, o⟩ := p
  cases o
  · exact .inl ⟨rfl, rfl⟩
  · exact .inr ⟨_, rfl, rfl⟩

end Sys2Proof.Machine
end

