-- ==== Sys2Proof/Laws/PerInstr.lean ====
section
/-! SUPPORT. Per-instruction statements. Family RowOf: the word of an instruction selects the row of R98 that bears its
name, whatever its operands. -/

namespace Sys2Proof.Laws.RowOf

/-- The instruction's word selects the row of its mnemonic in spec/30_encoding.md R98. -/
def Statement (i : Instr) : Prop := ∃ r ∈ opcodeRows, r.name = mnemonic i ∧ encode i &&& r.mask = r.pattern

theorem formatA (h : Nibble) (a : Addr12) : wordA h a &&& 0xF000#16 = BitVec.ofNat 16 (h.toNat * 4096) := by
  apply BitVec.eq_of_toNat_eq
  have := h.isLt
  rw [and_F000_toNat, wordA_toNat, BitVec.toNat_ofNat]; omega

theorem formatXK (h : Nibble) (x : Reg) (kk : Byte) : wordXK h x kk &&& 0xF000#16 = BitVec.ofNat 16 (h.toNat * 4096) := by
  apply BitVec.eq_of_toNat_eq
  have := h.isLt
  rw [and_F000_toNat, wordXK_toNat, BitVec.toNat_ofNat]; omega

theorem formatX (h : Nibble) (x : Reg) (kk : Byte) :
    wordXK h x kk &&& 0xF0FF#16 = BitVec.ofNat 16 (h.toNat * 4096 + kk.toNat) := by
  apply BitVec.eq_of_toNat_eq
  have := h.isLt
  rw [and_F0FF_toNat, wordXK_toNat, BitVec.toNat_ofNat]; omega

theorem formatXY (h : Nibble) (x y : Reg) (n : Nibble) :
    wordXY h x y n &&& 0xF00F#16 = BitVec.ofNat 16 (h.toNat * 4096 + n.toNat) := by
  apply BitVec.eq_of_toNat_eq
  have := h.isLt
  rw [and_F00F_toNat, wordXY_toNat, BitVec.toNat_ofNat]; omega

theorem formatXYN (h : Nibble) (x y : Reg) (n : Nibble) :
    wordXY h x y n &&& 0xF000#16 = BitVec.ofNat 16 (h.toNat * 4096) := by
  apply BitVec.eq_of_toNat_eq
  have := h.isLt
  rw [and_F000_toNat, wordXY_toNat, BitVec.toNat_ofNat]; omega

theorem cls (x : Nibble) : Statement (.cls x) :=
  ⟨⟨"CLS", 0xF0FF, 0x00E0⟩, by decide, rfl, formatX 0x0 x 0xE0⟩

theorem ret (x : Nibble) : Statement (.ret x) :=
  ⟨⟨"RET", 0xF0FF, 0x00EE⟩, by decide, rfl, formatX 0x0 x 0xEE⟩

theorem jp (nnn : Addr12) : Statement (.jp nnn) :=
  ⟨⟨"JP", 0xF000, 0x1000⟩, by decide, rfl, formatA 0x1 nnn⟩

theorem call (nnn : Addr12) : Statement (.call nnn) :=
  ⟨⟨"CALL", 0xF000, 0x2000⟩, by decide, rfl, formatA 0x2 nnn⟩

theorem seImm (x : Reg) (kk : Byte) : Statement (.seImm x kk) :=
  ⟨⟨"SE_IMM", 0xF000, 0x3000⟩, by decide, rfl, formatXK 0x3 x kk⟩

theorem sneImm (x : Reg) (kk : Byte) : Statement (.sneImm x kk) :=
  ⟨⟨"SNE_IMM", 0xF000, 0x4000⟩, by decide, rfl, formatXK 0x4 x kk⟩

theorem seReg (x y : Reg) : Statement (.seReg x y) :=
  ⟨⟨"SE_REG", 0xF00F, 0x5000⟩, by decide, rfl, formatXY 0x5 x y 0x0⟩

theorem ldImm (x : Reg) (kk : Byte) : Statement (.ldImm x kk) :=
  ⟨⟨"LD_IMM", 0xF000, 0x6000⟩, by decide, rfl, formatXK 0x6 x kk⟩

theorem addImm (x : Reg) (kk : Byte) : Statement (.addImm x kk) :=
  ⟨⟨"ADD_IMM", 0xF000, 0x7000⟩, by decide, rfl, formatXK 0x7 x kk⟩

theorem ldReg (x y : Reg) : Statement (.ldReg x y) :=
  ⟨⟨"LD_REG", 0xF00F, 0x8000⟩, by decide, rfl, formatXY 0x8 x y 0x0⟩

theorem orReg (x y : Reg) : Statement (.orReg x y) :=
  ⟨⟨"OR", 0xF00F, 0x8001⟩, by decide, rfl, formatXY 0x8 x y 0x1⟩

theorem andReg (x y : Reg) : Statement (.andReg x y) :=
  ⟨⟨"AND", 0xF00F, 0x8002⟩, by decide, rfl, formatXY 0x8 x y 0x2⟩

theorem xorReg (x y : Reg) : Statement (.xorReg x y) :=
  ⟨⟨"XOR", 0xF00F, 0x8003⟩, by decide, rfl, formatXY 0x8 x y 0x3⟩

theorem addReg (x y : Reg) : Statement (.addReg x y) :=
  ⟨⟨"ADD_REG", 0xF00F, 0x8004⟩, by decide, rfl, formatXY 0x8 x y 0x4⟩

theorem sub (x y : Reg) : Statement (.sub x y) :=
  ⟨⟨"SUB", 0xF00F, 0x8005⟩, by decide, rfl, formatXY 0x8 x y 0x5⟩

theorem shr (x y : Reg) : Statement (.shr x y) :=
  ⟨⟨"SHR", 0xF00F, 0x8006⟩, by decide, rfl, formatXY 0x8 x y 0x6⟩

theorem subn (x y : Reg) : Statement (.subn x y) :=
  ⟨⟨"SUBN", 0xF00F, 0x8007⟩, by decide, rfl, formatXY 0x8 x y 0x7⟩

theorem shl (x y : Reg) : Statement (.shl x y) :=
  ⟨⟨"SHL", 0xF00F, 0x800E⟩, by decide, rfl, formatXY 0x8 x y 0xE⟩

theorem sneReg (x y : Reg) : Statement (.sneReg x y) :=
  ⟨⟨"SNE_REG", 0xF00F, 0x9000⟩, by decide, rfl, formatXY 0x9 x y 0x0⟩

theorem ldI (nnn : Addr12) : Statement (.ldI nnn) :=
  ⟨⟨"LD_I", 0xF000, 0xA000⟩, by decide, rfl, formatA 0xA nnn⟩

theorem jpV0 (nnn : Addr12) : Statement (.jpV0 nnn) :=
  ⟨⟨"JP_V0", 0xF000, 0xB000⟩, by decide, rfl, formatA 0xB nnn⟩

theorem rnd (x : Reg) (kk : Byte) : Statement (.rnd x kk) :=
  ⟨⟨"RND", 0xF000, 0xC000⟩, by decide, rfl, formatXK 0xC x kk⟩

theorem drw (x y : Reg) (n : Nibble) : Statement (.drw x y n) :=
  ⟨⟨"DRW", 0xF000, 0xD000⟩, by decide, rfl, formatXYN 0xD x y n⟩

theorem skp (x : Reg) : Statement (.skp x) :=
  ⟨⟨"SKP", 0xF0FF, 0xE09E⟩, by decide, rfl, formatX 0xE x 0x9E⟩

theorem sknp (x : Reg) : Statement (.sknp x) :=
  ⟨⟨"SKNP", 0xF0FF, 0xE0A1⟩, by decide, rfl, formatX 0xE x 0xA1⟩

theorem ldVxDt (x : Reg) : Statement (.ldVxDt x) :=
  ⟨⟨"LD_VX_DT", 0xF0FF, 0xF007⟩, by decide, rfl, formatX 0xF x 0x07⟩

theorem ldVxK (x : Reg) : Statement (.ldVxK x) :=
  ⟨⟨"LD_VX_K", 0xF0FF, 0xF00A⟩, by decide, rfl, formatX 0xF x 0x0A⟩

theorem ldDtVx (x : Reg) : Statement (.ldDtVx x) :=
  ⟨⟨"LD_DT_VX", 0xF0FF, 0xF015⟩, by decide, rfl, formatX 0xF x 0x15⟩

theorem ldStVx (x : Reg) : Statement (.ldStVx x) :=
  ⟨⟨"LD_ST_VX", 0xF0FF, 0xF018⟩, by decide, rfl, formatX 0xF x 0x18⟩

theorem addIVx (x : Reg) : Statement (.addIVx x) :=
  ⟨⟨"ADD_I_VX", 0xF0FF, 0xF01E⟩, by decide, rfl, formatX 0xF x 0x1E⟩

theorem ldFVx (x : Reg) : Statement (.ldFVx x) :=
  ⟨⟨"LD_F_VX", 0xF0FF, 0xF029⟩, by decide, rfl, formatX 0xF x 0x29⟩

theorem ldBVx (x : Reg) : Statement (.ldBVx x) :=
  ⟨⟨"LD_B_VX", 0xF0FF, 0xF033⟩, by decide, rfl, formatX 0xF x 0x33⟩

theorem ldMemVx (x : Reg) : Statement (.ldMemVx x) :=
  ⟨⟨"LD_MEM_VX", 0xF0FF, 0xF055⟩, by decide, rfl, formatX 0xF x 0x55⟩

theorem ldVxMem (x : Reg) : Statement (.ldVxMem x) :=
  ⟨⟨"LD_VX_MEM", 0xF0FF, 0xF065⟩, by decide, rfl, formatX 0xF x 0x65⟩

end Sys2Proof.Laws.RowOf
end

