-- ==== Sys2Proof/Laws/Step.lean ====
section
/-! SUPPORT. Fetch, time and the step: what each can do, said once. -/

namespace Sys2Proof.Machine

/-! ## Addresses of the claims -/

theorem allowed_iff_inRange (a : Nat) : allowed a ↔ inRange a = true := by rw [inRange_iff]; unfold allowed; omega

theorem not_allowed_iff (a : Nat) : ¬ allowed a ↔ inRange a = false := by rw [allowed_iff_inRange]; simp

/-- The frames of Safety.lean keep every byte of memory. -/
theorem onlyRegs_peek {s t : State} (h : onlyRegs s t) (a : Nat) : t.peek a = s.peek a := by
  unfold onlyRegs at h; rw [h]; rfl

theorem onlyPc_peek {s t : State} (h : onlyPc s t) (a : Nat) : t.peek a = s.peek a := by
  unfold onlyPc at h; rw [h]; rfl

/-! ## Fetch (spec/20_memory.md R68) -/

theorem fetch_ok (s : State) (h1 : 512 ≤ s.pc.toNat) (h2 : s.pc.toNat ≤ 4094) :
    fetch s = .ok (wordAtPc s, { s with pc := s.pc + 2 }) := by
  unfold fetch
  rw [memRead_of_inRange s ((inRange_iff _).2 ⟨h1, by omega⟩),
    memRead_of_inRange s ((inRange_iff (s.pc.toNat + 1)).2 ⟨by omega, by omega⟩)]
  rfl

theorem fetch_refused_first (s : State) (h : s.pc.toNat < 512 ∨ 4096 ≤ s.pc.toNat) : fetch s = .error s.pc.toNat := by
  unfold fetch
  rw [(memRead_eq_none_iff _ _).2 ((inRange_eq_false_iff _).2 h)]

theorem fetch_refused_second (s : State) (h : s.pc.toNat = 4095) : fetch s = .error 4096 := by
  unfold fetch
  rw [memRead_of_inRange s ((inRange_iff _).2 ⟨by omega, by omega⟩),
    (memRead_eq_none_iff _ _).2 ((inRange_eq_false_iff _).2 (by omega)), h]

/-- Everything a fetch can do: give the word at pc with pc advanced, or refuse at pc or at pc + 1. -/
theorem fetch_cases (s : State) :
    (512 ≤ s.pc.toNat ∧ s.pc.toNat ≤ 4094 ∧ fetch s = .ok (wordAtPc s, { s with pc := s.pc + 2 })) ∨
    (∃ a, ¬ (512 ≤ s.pc.toNat ∧ s.pc.toNat ≤ 4094) ∧ inRange a = false ∧ a ≤ 65536 ∧ fetch s = .error a) := by
  have := s.pc.isLt
  by_cases h : 512 ≤ s.pc.toNat ∧ s.pc.toNat ≤ 4094
  · exact .inl ⟨h.1, h.2, fetch_ok s h.1 h.2⟩
  · refine .inr ?_
    by_cases h' : s.pc.toNat = 4095
    · exact ⟨4096, h, by decide, by omega, fetch_refused_second s h'⟩
    · have h'' : s.pc.toNat < 512 ∨ 4096 ≤ s.pc.toNat := by omega
      exact ⟨s.pc.toNat, h, (inRange_eq_false_iff _).2 h'', by omega, fetch_refused_first s h''⟩

/-! ## Time (spec/60_exceptions.md R240) -/

theorem tickCell_le (r : Bool) (v : Byte) : (tickCell r v).toNat ≤ v.toNat := by
  unfold tickCell
  split
  · rename_i h
    simp only [Bool.and_eq_true, bne_iff_ne] at h
    have : v.toNat ≠ 0 := fun e => h.2 (BitVec.eq_of_toNat_eq e)
    have := v.isLt
    rw [BitVec.toNat_sub]; simp; omega
  · exact Nat.le_refl _

theorem tickCell_iterate_le (r : Bool) (k : Nat) (v : Byte) : ((tickCell r)^[k] v).toNat ≤ v.toNat := by
  induction k generalizing v with
  | zero => exact Nat.le_refl _
  | succ k ih => rw [Function.iterate_succ_apply]; exact Nat.le_trans (ih _) (tickCell_le r v)

/-- The short cut of `afterTicks` is the ticks one by one. -/
theorem afterTicks_eq_iterate (r : Bool) (k : Nat) (v : Byte) : afterTicks r k v = (tickCell r)^[k] v := by
  unfold afterTicks
  split
  · rename_i h; exact (Function.iterate_fixed h k).symm
  · rfl

theorem afterTicks_le (r : Bool) (k : Nat) (v : Byte) : (afterTicks r k v).toNat ≤ v.toNat := by
  rw [afterTicks_eq_iterate]; exact tickCell_iterate_le r k v

/-! ## The step -/

/-- A step is a core step and then time. -/
theorem step_of_coreStep {s t : State} (h : coreStep s = .next t) : step s = .next (elapse t) := by simp [step, h]

theorem step_next_iff (s u : State) : step s = .next u ↔ ∃ t, coreStep s = .next t ∧ u = elapse t := by
  unfold step
  cases h : coreStep s <;> simp [eq_comm]

/-- Executing an Invalid word where it is not lenient. -/
theorem execInvalid_strict (w : Word) (s : State) : execInvalid false w s = raiseAt .invalidInstruction none w s := rfl

/-- Everything a core step can do, by phase and by what the fetch gives (spec/10_state.md R21). -/
theorem coreStep_cases (s : State) :
    (s.phase = .fault ∧ coreStep s = .next s) ∨
    (∃ x, s.phase = .waitKey x ∧ coreStep s = .next (pollKey x s)) ∨
    (∃ a, s.phase = .run ∧ ¬ (512 ≤ s.pc.toNat ∧ s.pc.toNat ≤ 4094) ∧ inRange a = false ∧
      coreStep s = .next (fetchFault a s)) ∨
    (∃ w, s.phase = .run ∧ (512 ≤ s.pc.toNat ∧ s.pc.toNat ≤ 4094) ∧ decode (wordAtPc s) = .invalid w ∧
      coreStep s = .next (execInvalid params.lenientInvalid w { s with pc := s.pc + 2 })) ∨
    (∃ i, s.phase = .run ∧ (512 ≤ s.pc.toNat ∧ s.pc.toNat ≤ 4094) ∧ decode (wordAtPc s) = .instr i ∧
      coreStep s = exec i { s with pc := s.pc + 2 }) := by
  have hc : s.phase = .fault ∨ (∃ x, s.phase = .waitKey x) ∨ s.phase = .run := by cases s.phase <;> simp
  rcases hc with hp | ⟨x, hp⟩ | hp
  · exact .inl ⟨hp, by simp [coreStep, hp]⟩
  · exact .inr (.inl ⟨x, hp, by simp [coreStep, hp]⟩)
  · rcases fetch_cases s with ⟨h1, h2, h⟩ | ⟨a, h1, h2, _, h⟩
    · cases hd : decode (wordAtPc s) with
      | invalid w => exact .inr (.inr (.inr (.inl ⟨w, hp, ⟨h1, h2⟩, rfl, by simp [coreStep, hp, h, hd]⟩)))
      | instr i => exact .inr (.inr (.inr (.inr ⟨i, hp, ⟨h1, h2⟩, rfl, by simp [coreStep, hp, h, hd]⟩)))
    · exact .inr (.inr (.inl ⟨a, hp, h1, h2, by simp [coreStep, hp, h]⟩))

/-- No meaning faults or refuses. -/
theorem exec_answers_next (i : Instr) (s : State) : ∃ t, exec i s = .next t := by
  cases i
  case ret x => unfold exec execRet; rcases pop_cases s with ⟨_, h⟩ | ⟨a, r, _, h⟩ <;> simp [h]
  case call x => unfold exec execCall; rcases push_cases s.pc s with ⟨_, h⟩ | ⟨_, h⟩ <;> simp [h]
  case drw x y n => unfold exec execDrw; dsimp only; split <;> simp
  all_goals exact ⟨_, rfl⟩

/-! ## What an instruction can do to memory, the phase and the fault record -/

theorem finishRun_mem (i : Instr) (p : State × Option Nat) : (finishRun i p).mem = p.1.mem := by rw [finishRun_frame]

/-- Everything one poll of the keyboard can do. -/
theorem pollKey_cases (x : Reg) (s : State) :
    (∃ k, Config.keyWait s.instant = some k ∧ pollKey x s = { s.setReg x (zext8 k) with phase := .run }) ∨
    (Config.keyWait s.instant = none ∧ pollKey x s = { s with phase := .waitKey x }) := by
  unfold pollKey
  cases Config.keyWait s.instant with
  | some k => exact .inl ⟨k, rfl, rfl⟩
  | none => exact .inr ⟨rfl, rfl⟩

/-- The phase and the record after an instruction: as before, or set by the wait for a key, or those of the one cause
the instruction can raise. -/
theorem exec_status (i : Instr) (s t : State) (h : exec i s = .next t) :
    (t.phase = s.phase ∧ t.faultRecord = s.faultRecord) ∨
    (∃ x, i = .ldVxK x ∧ t.faultRecord = s.faultRecord ∧ (t.phase = .run ∨ t.phase = .waitKey x)) ∨
    (∃ c a, mayRaise i c ∧ t.phase = .fault ∧
      t.faultRecord = some { cause := c, addr := Option.map (BitVec.ofNat 17) a, word := some (encode i), pc := s.pc - 2 } ∧ t.pc = s.pc ∧
      (c = .memoryOutOfRange → ∃ n, a = some n ∧ inRange n = false ∧ n < 131072)) := by
  have hI := s.i.isLt
  cases i
  case ret x =>
    unfold exec execRet at h
    rcases pop_cases s with ⟨_, hp⟩ | ⟨a, r, _, hp⟩ <;> simp only [hp] at h <;> cases h
    · exact .inr (.inr ⟨_, none, rfl, rfl, rfl, rfl, by simp⟩)
    · exact .inl ⟨rfl, rfl⟩
  case call x =>
    unfold exec execCall at h
    rcases push_cases s.pc s with ⟨_, hp⟩ | ⟨_, hp⟩ <;> simp only [hp] at h <;> cases h
    · exact .inr (.inr ⟨_, none, rfl, rfl, rfl, rfl, by simp⟩)
    · exact .inl ⟨rfl, rfl⟩
  case drw x y n =>
    unfold exec execDrw at h
    dsimp only at h
    split at h <;> cases h
    · rename_i a ha
      have := readBytes_refuses _ _ _ _ ha
      have := n.isLt
      exact .inr (.inr ⟨_, some a, rfl, rfl, rfl, rfl, fun _ => ⟨a, rfl, by tauto, by simp only [effAddr] at *; omega⟩⟩)
    · exact .inl ⟨rfl, rfl⟩
  case ldBVx x =>
    have e : t = finishRun (.ldBVx x) (storeBytes (effAddr s 0) (bcdDigits (s.reg x)) s) := by cases h; rfl
    have hf := storeBytes_frame (effAddr s 0) (bcdDigits (s.reg x)) s
    rcases finishRun_cases (.ldBVx x) (storeBytes (effAddr s 0) (bcdDigits (s.reg x)) s) with ⟨_, h2⟩ | ⟨a, h1, h2⟩
    · left; rw [e, h2, hf]; exact ⟨rfl, rfl⟩
    · have := storeBytes_refuses _ _ _ _ h1
      have hl : (bcdDigits (s.reg x)).length = 3 := rfl
      right; right; refine ⟨_, some a, rfl, ?_, ?_, ?_, fun _ => ⟨a, rfl, this.1, by simp only [effAddr] at *; omega⟩⟩ <;> rw [e, h2, hf] <;> rfl
  case ldMemVx x =>
    have e : t = finishRun (.ldMemVx x) (bumpIndex params.memopsIncI x (storeBytes (effAddr s 0) (regBytes x s) s)) := by cases h; rfl
    have hb := bumpIndex_frame params.memopsIncI x (storeBytes (effAddr s 0) (regBytes x s) s)
    have hf := storeBytes_frame (effAddr s 0) (regBytes x s) s
    rcases finishRun_cases (.ldMemVx x) (bumpIndex params.memopsIncI x (storeBytes (effAddr s 0) (regBytes x s) s)) with ⟨_, h2⟩ | ⟨a, h1, h2⟩
    · left; rw [e, h2, hb, hf]; exact ⟨rfl, rfl⟩
    · rw [bumpIndex_refusal] at h1
      have := storeBytes_refuses _ _ _ _ h1
      have hl : (regBytes x s).length = x.toNat + 1 := by simp [regBytes]
      have := x.isLt
      right; right; refine ⟨_, some a, rfl, ?_, ?_, ?_, fun _ => ⟨a, rfl, by tauto, by simp only [effAddr] at *; omega⟩⟩ <;> rw [e, h2, hb, hf] <;> rfl
  case ldVxMem x =>
    have e : t = finishRun (.ldVxMem x) (bumpIndex params.memopsIncI x (loadRegs (effAddr s 0) 0 (x.toNat+1) s)) := by cases h; rfl
    have hb := bumpIndex_frame params.memopsIncI x (loadRegs (effAddr s 0) 0 (x.toNat+1) s)
    have hf := loadRegs_frame (effAddr s 0) 0 (x.toNat+1) s
    rcases finishRun_cases (.ldVxMem x) (bumpIndex params.memopsIncI x (loadRegs (effAddr s 0) 0 (x.toNat+1) s)) with ⟨_, h2⟩ | ⟨a, h1, h2⟩
    · left; rw [e, h2, hb, hf]; exact ⟨rfl, rfl⟩
    · have := x.isLt
      rw [bumpIndex_refusal] at h1
      have := loadRegs_refuses _ _ _ _ (by omega) h1
      right; right; refine ⟨_, some a, rfl, ?_, ?_, ?_, fun _ => ⟨a, rfl, by tauto, by simp only [effAddr] at *; omega⟩⟩ <;> rw [e, h2, hb, hf] <;> rfl
  case ldVxK x =>
    right; left; refine ⟨x, rfl, ?_⟩
    unfold exec execLdVxK pollKey at h
    dsimp only at h
    cases h
    cases Config.keyWait s.instant
    · exact ⟨rfl, .inr rfl⟩
    · exact ⟨rfl, .inl rfl⟩
  all_goals
    cases h
    exact .inl ⟨rfl, rfl⟩

/-- Memory after an instruction: as before, or after the run of stores of `Fx33` or `Fx55`. -/
theorem exec_mem (i : Instr) (s t : State) (h : exec i s = .next t) :
    t.mem = s.mem ∨ (∃ x, i = .ldBVx x ∧ t.mem = (storeBytes s.i.toNat (bcdDigits (s.reg x)) s).1.mem) ∨
      (∃ x, i = .ldMemVx x ∧ t.mem = (storeBytes s.i.toNat (regBytes x s) s).1.mem) := by
  cases i
  case ret x =>
    unfold exec execRet at h
    rcases pop_cases s with ⟨_, hp⟩ | ⟨a, r, _, hp⟩ <;> simp only [hp] at h <;> cases h <;> exact .inl rfl
  case call x =>
    unfold exec execCall at h
    rcases push_cases s.pc s with ⟨_, hp⟩ | ⟨_, hp⟩ <;> simp only [hp] at h <;> cases h <;> exact .inl rfl
  case drw x y n =>
    unfold exec execDrw at h
    dsimp only at h
    split at h <;> cases h <;> exact .inl rfl
  case ldBVx x =>
    cases h; exact .inr (.inl ⟨x, rfl, finishRun_mem _ _⟩)
  case ldMemVx x =>
    cases h; refine .inr (.inr ⟨x, rfl, ?_⟩); rw [finishRun_mem, bumpIndex_frame]; rfl
  case ldVxMem x =>
    cases h; left; rw [finishRun_mem, bumpIndex_frame, loadRegs_frame]
  case ldVxK x =>
    unfold exec execLdVxK pollKey at h
    dsimp only at h
    cases h
    cases Config.keyWait s.instant <;> exact .inl rfl
  all_goals
    cases h
    exact .inl rfl

end Sys2Proof.Machine
end

