-- ==== Sys2Proof/Tests/Slice0.lean ====
section
/-! SUPPORT. Tests of one step or one decode each, with the expected value taken from spec/95_test_vectors.md (V-…, S…) or
worked out by hand from the rule named; and, for every obligation with hypotheses, a witness that meets them. -/

namespace Sys2Proof.Tests

open Sys2Proof Sys2Proof.Machine

/-! ## Helpers -/

/-- A state with two registers set. -/
def regs2 (x : Reg) (a : Byte) (y : Reg) (b : Byte) : State := (State.reset.setReg x a).setReg y b

/-- A state with V0 … V3 set (V-IDX-11, V-IDX-13). -/
def regs4 : State := (((State.reset.setReg 0 0x11).setReg 1 0x22).setReg 2 0x33).setReg 3 0x44

/-- A state with I set. -/
def withI (i : Word) (s : State) : State := { s with i := i }

/-- A state with pc set. -/
def withPc (pc : Word) : State := { State.reset with pc := pc }

/-- A state with `n` stack entries. -/
def withStack (n : Nat) : State := { State.reset with stack := List.replicate n 0x0202 }

/-- A state stopped by a fault. -/
def stopped : State :=
  { State.reset with
    phase := .fault
    faultRecord := some { cause := .invalidInstruction, addr := none, word := some 0, pc := 0x200 } }

/-- A state that waits for a key for V3. -/
def waiting : State := { State.reset with phase := .waitKey 3 }

/-- The state reached, where a next state is answered. -/
def reached (r : Result) (s : State) : State :=
  match r with
  | .next t => t
  | .fault _ => s
  | .refused _ => s

/-- The state after an instruction. -/
def after (i : Instr) (s : State) : State := reached (exec i s) s

/-- The state after a step whose instruction word is `w`. -/
def afterWord (w : Nat) (s : State) : State := reached (step (s.withFetchWord 16 w)) s

/-- Whether a next state is answered. -/
def answersNext (r : Result) : Bool :=
  match r with
  | .next _ => true
  | .fault _ => false
  | .refused _ => false

/-- The set cells of a row. -/
def setColumns (fb : FrameBuffer) (row : Fin 32) : List Nat :=
  (List.range 64).filter (fun c => cell fb row (Fin.ofNat 64 c))

/-! ## Well-formedness: a term each check refuses -/

/-- Under ZERO_HEAD_MASK = 0xFFFF, which decision D10 names, a nonzero field x of CLS is refused. -/
theorem test_illFormed_cls : wellFormedWith 0xFFFF (.cls 3) = false := by decide

/-- The same of RET. -/
theorem test_illFormed_ret : wellFormedWith 0xFFFF (.ret 8) = false := by decide

/-- Under the spec's mask the same terms pass (V-DEC-3, V-DEC-4). -/
theorem test_wellFormed_ignored_field : wellFormed (.cls 3) = true ∧ wellFormed (.ret 8) = true := by decide

/-- V-DEC-3: under mask 0xFFFF the word 0x0AE0 is Invalid. -/
theorem test_decode_other_mask : decodeWith 0xFFFF 0x0AE0 = .invalid 0x0AE0 := by decide

/-! ## Decoding: words written out from R98, one at least per constructor -/

/-- S1: the fields of 0xABCD. -/
theorem test_fields : fieldHead 0xABCD = 0xA ∧ fieldX 0xABCD = 0xB ∧ fieldY 0xABCD = 0xC ∧ fieldN 0xABCD = 0xD ∧
    fieldKK 0xABCD = 0xCD ∧ fieldNNN 0xABCD = 0xBCD := by decide

/-- V-DEC-1 to V-DEC-4. -/
theorem test_decode_head0 : decode 0x00E0 = .instr (.cls 0) ∧ decode 0x00EE = .instr (.ret 0) ∧
    decode 0x0AE0 = .instr (.cls 0xA) ∧ decode 0x0FEE = .instr (.ret 0xF) := by decide

/-- V-DEC-8, V-DEC-9, V-DEC-22. -/
theorem test_decode_jumps : decode 0x1ABC = .instr (.jp 0xABC) ∧ decode 0x2FFF = .instr (.call 0xFFF) ∧
    decode 0xB300 = .instr (.jpV0 0x300) := by decide

/-- V-DEC-10 to V-DEC-12, V-DEC-19. -/
theorem test_decode_skips : decode 0x3A7F = .instr (.seImm 10 0x7F) ∧ decode 0x4012 = .instr (.sneImm 0 0x12) ∧
    decode 0x5AB0 = .instr (.seReg 10 11) ∧ decode 0x9120 = .instr (.sneReg 1 2) := by decide

/-- V-DEC-14, V-DEC-15, V-DEC-21, V-DEC-23, V-DEC-24. -/
theorem test_decode_immediates : decode 0x6C42 = .instr (.ldImm 12 0x42) ∧ decode 0x7FFF = .instr (.addImm 15 0xFF) ∧
    decode 0xA250 = .instr (.ldI 0x250) ∧ decode 0xC10F = .instr (.rnd 1 0x0F) ∧
    decode 0xD125 = .instr (.drw 1 2 5) := by decide

/-- V-DEC-16, V-DEC-17. -/
theorem test_decode_head8 : decode 0x8AB0 = .instr (.ldReg 10 11) ∧ decode 0x8AB1 = .instr (.orReg 10 11) ∧
    decode 0x8AB2 = .instr (.andReg 10 11) ∧ decode 0x8AB3 = .instr (.xorReg 10 11) ∧
    decode 0x8AB4 = .instr (.addReg 10 11) ∧ decode 0x8AB5 = .instr (.sub 10 11) ∧ decode 0x8AB6 = .instr (.shr 10 11) ∧
    decode 0x8AB7 = .instr (.subn 10 11) ∧ decode 0x8ABE = .instr (.shl 10 11) := by decide

/-- V-DEC-25. -/
theorem test_decode_headE : decode 0xE19E = .instr (.skp 1) ∧ decode 0xE1A1 = .instr (.sknp 1) := by decide

/-- V-DEC-27. -/
theorem test_decode_headF : decode 0xF107 = .instr (.ldVxDt 1) ∧ decode 0xF10A = .instr (.ldVxK 1) ∧
    decode 0xF115 = .instr (.ldDtVx 1) ∧ decode 0xF118 = .instr (.ldStVx 1) ∧ decode 0xF11E = .instr (.addIVx 1) ∧
    decode 0xF129 = .instr (.ldFVx 1) ∧ decode 0xF133 = .instr (.ldBVx 1) ∧ decode 0xF155 = .instr (.ldMemVx 1) ∧
    decode 0xF165 = .instr (.ldVxMem 1) := by decide

/-- V-DEC-5 to 7, 13, 18, 20, 26, 28, 29: Invalid words. -/
theorem test_decode_invalid :
    [0x0000, 0x00E1, 0x00ED, 0x00EF, 0x0123, 0x5AB1, 0x8AB8, 0x8AB9, 0x8ABA, 0x8ABB, 0x8ABC, 0x8ABD, 0x8ABF, 0x9121,
     0x912F, 0xE000, 0xE19F, 0xE1A0, 0xE1FF, 0xF100, 0xF101, 0xF130, 0xF175, 0xF185, 0xF1FF, 0xF000, 0xFFFF].all
      (fun w => decide (decode w = .invalid w)) = true := by decide

/-- A lone byte is no instruction (R90); an instruction gives the bytes after it back. -/
theorem test_decodeBytes : decodeBytes [0x00] = .error .truncated ∧
    decodeBytes [0x60, 0x0A, 0xA2] = .ok (.ldImm 0 0x0A, [0xA2]) ∧
    decodeBytes [0x00, 0x00] = .error (.invalidInstruction 0x0000) := by decide

/-- One word of each of the first 17 rows is decoded, and run as the first instruction after reset. -/
theorem test_rows_low : [0x00E0, 0x00EE, 0x1ABC, 0x2300, 0x3A7F, 0x4012, 0x5AB0, 0x6C42, 0x7FFF, 0x8AB0, 0x8AB1, 0x8AB2,
    0x8AB3, 0x8AB4, 0x8AB5, 0x8AB6, 0x8AB7].all
      (fun w => (decodeTableWord 16 w).isSome && answersNext (step (State.reset.withFetchWord 16 w))) = true := by decide

/-- The same of the other 17 rows. -/
theorem test_rows_high : [0x8ABE, 0x9120, 0xA250, 0xB300, 0xC10F, 0xD120, 0xE19E, 0xE1A1, 0xF107, 0xF10A, 0xF115, 0xF118,
    0xF11E, 0xF129, 0xF133, 0xF155, 0xF165].all
      (fun w => (decodeTableWord 16 w).isSome && answersNext (step (State.reset.withFetchWord 16 w))) = true := by decide

/-! ## Control flow -/

/-- V-FLOW-1, V-FLOW-3: the target is written unchecked. -/
theorem test_jp : (afterWord 0x1200 State.reset).pc = 0x200 ∧ (afterWord 0x1100 State.reset).pc = 0x100 := by decide

/-- V-FLOW-4: the pushed address is that of the next instruction. -/
theorem test_call : (afterWord 0x2300 State.reset).pc = 0x300 ∧ (afterWord 0x2300 State.reset).sp = 1 ∧
    (afterWord 0x2300 State.reset).stk 0 = some 0x0202 := by decide

/-- V-FLT-4, P6: the seventeenth CALL. -/
theorem test_call_overflow : (afterWord 0x2300 (withStack 16)).faultRecord =
      some { cause := .stackOverflow, addr := none, word := some 0x2300, pc := 0x200 } ∧
    (afterWord 0x2300 (withStack 16)).pc = 0x202 ∧ (afterWord 0x2300 (withStack 16)).sp = 16 := by decide

/-- V-FLOW-5. -/
theorem test_ret : (afterWord 0x00EE { State.reset with stack := [0x0ABC] }).pc = 0x0ABC ∧
    (afterWord 0x00EE { State.reset with stack := [0x0ABC] }).sp = 0 := by decide

/-- V-FLOW-6, V-FLT-3. -/
theorem test_ret_underflow : (afterWord 0x00EE State.reset).faultRecord =
      some { cause := .stackUnderflow, addr := none, word := some 0x00EE, pc := 0x200 } ∧
    (afterWord 0x00EE State.reset).pc = 0x202 := by decide

/-- V-FLOW-7, V-FLOW-8: the sum is not reduced modulo 4096. -/
theorem test_jpV0 : (afterWord 0xB300 (State.reset.setReg 0 0x10)).pc = 0x310 ∧
    (afterWord 0xBFFF (State.reset.setReg 0 0xFF)).pc = 0x10FE := by decide

/-- V-FLOW-9, V-FLOW-10. -/
theorem test_seImm : (afterWord 0x3A7F (State.reset.setReg 10 0x7F)).pc = 0x204 ∧
    (afterWord 0x3A7F (State.reset.setReg 10 0x7E)).pc = 0x202 := by decide

/-- V-FLOW-11, V-FLOW-12. -/
theorem test_sneImm : (afterWord 0x4A7F (State.reset.setReg 10 0x7F)).pc = 0x202 ∧
    (afterWord 0x4A7F State.reset).pc = 0x204 := by decide

/-- V-FLOW-13, V-FLOW-14. -/
theorem test_seReg : (afterWord 0x5120 (regs2 1 9 2 9)).pc = 0x204 ∧ (afterWord 0x5120 (regs2 1 9 2 8)).pc = 0x202 := by decide

/-- V-FLOW-16, V-FLOW-17. -/
theorem test_sneReg : (afterWord 0x9120 (regs2 1 9 2 8)).pc = 0x204 ∧ (afterWord 0x9120 (regs2 1 9 2 9)).pc = 0x202 := by
  decide

/-- V-FLOW-19, V-FLOW-20: the last fetchable address, and a skip over it. -/
theorem test_pc_at_the_top : (afterWord 0x3000 (withPc 0xFFC)).pc = 0x1000 ∧ (afterWord 0x6000 (withPc 0xFFE)).pc = 0x1000 := by
  decide

/-! ## Loads, arithmetic, logic -/

/-- V-ALU-1, V-ALU-2. -/
theorem test_ldImm : (after (.ldImm 12 0x42) (State.reset.setReg 12 0xFF)).reg 12 = 0x42 ∧
    (after (.ldImm 15 7) State.reset).reg 15 = 7 := by decide

/-- V-ALU-3: no carry is reported. -/
theorem test_addImm : (after (.addImm 1 5) (State.reset.setReg 1 0xFE)).reg 1 = 3 ∧
    (after (.addImm 1 5) (State.reset.setReg 1 0xFE)).reg 15 = 0 := by decide

/-- V-ALU-5: VF as a destination. -/
theorem test_addImm_vf : (after (.addImm 15 1) (State.reset.setReg 15 0xFF)).reg 15 = 0 := by decide

/-- V-ALU-6. -/
theorem test_ldReg : (after (.ldReg 1 2) (regs2 1 1 2 0xAA)).reg 1 = 0xAA ∧
    (after (.ldReg 1 2) (regs2 1 1 2 0xAA)).reg 2 = 0xAA := by decide

/-- V-ALU-7: VF is left alone. -/
theorem test_orReg : (after (.orReg 1 2) ((regs2 1 0x0F 2 0xF0).setReg 15 9)).reg 1 = 0xFF ∧
    (after (.orReg 1 2) ((regs2 1 0x0F 2 0xF0).setReg 15 9)).reg 15 = 9 := by decide

/-- V-ALU-8. -/
theorem test_andReg : (after (.andReg 1 2) ((regs2 1 0x3C 2 0x0F).setReg 15 9)).reg 1 = 0x0C ∧
    (after (.andReg 1 2) ((regs2 1 0x3C 2 0x0F).setReg 15 9)).reg 15 = 9 := by decide

/-- V-ALU-9, V-ALU-10. -/
theorem test_xorReg : (after (.xorReg 1 2) (regs2 1 0xFF 2 0x0F)).reg 1 = 0xF0 ∧
    (after (.xorReg 1 1) (State.reset.setReg 1 0x5A)).reg 1 = 0 := by decide

/-- S6, V-ALU-12: a carry, and a sum of 255. -/
theorem test_addReg : (after (.addReg 1 2) (regs2 1 250 2 10)).reg 1 = 4 ∧ (after (.addReg 1 2) (regs2 1 250 2 10)).reg 15 = 1 ∧
    (after (.addReg 1 2) (regs2 1 0xFF 2 0)).reg 15 = 0 := by decide

/-- V-ALU-20 to V-ALU-22: VF as destination, as operand, as both. -/
theorem test_addReg_vf : (after (.addReg 15 1) (regs2 15 250 1 10)).reg 15 = 4 ∧
    (after (.addReg 1 15) (regs2 15 10 1 250)).reg 15 = 1 ∧ (after (.addReg 15 15) (State.reset.setReg 15 200)).reg 15 = 0x90 := by
  decide

/-- S6, V-ALU-14: no borrow on equality; a borrow wraps. -/
theorem test_sub : (after (.sub 1 2) (regs2 1 7 2 7)).reg 15 = 1 ∧ (after (.sub 1 2) (regs2 1 3 2 5)).reg 1 = 0xFE ∧
    (after (.sub 1 2) (regs2 1 3 2 5)).reg 15 = 0 := by decide

/-- V-ALU-23. -/
theorem test_sub_vf : (after (.sub 15 1) (regs2 15 3 1 5)).reg 15 = 0xFE := by decide

/-- V-ALU-16, V-ALU-17. -/
theorem test_subn : (after (.subn 1 2) (regs2 1 3 2 5)).reg 1 = 2 ∧ (after (.subn 1 2) (regs2 1 3 2 5)).reg 15 = 1 ∧
    (after (.subn 1 2) (regs2 1 5 2 3)).reg 1 = 0xFE := by decide

/-- V-ALU-26. -/
theorem test_subn_vf : (after (.subn 15 1) (regs2 15 5 1 3)).reg 15 = 0xFE := by decide

/-- V-ALU-18: the shifted register is V[x]. -/
theorem test_shr : (after (.shr 1 2) (regs2 1 5 2 0xFF)).reg 1 = 2 ∧ (after (.shr 1 2) (regs2 1 5 2 0xFF)).reg 15 = 1 := by
  decide

/-- V-ALU-19. -/
theorem test_shl : (after (.shl 1 2) (regs2 1 0x81 2 0)).reg 1 = 2 ∧ (after (.shl 1 2) (regs2 1 0x81 2 0)).reg 15 = 1 := by
  decide

/-- V-ALU-25. -/
theorem test_shl_vf : (after (.shl 15 0) (State.reset.setReg 15 0x81)).reg 15 = 2 := by decide

/-- V-ALU-31: under kk = 0 every draw gives 0. -/
theorem test_rnd : ∀ s : State, (after (.rnd 1 0) s).reg 1 = 0 := by
  intro s
  show (s.setReg 1 (Config.randByte s.instant &&& 0)).reg 1 = 0
  simp

/-! ## Index register and memory -/

/-- V-IDX-1. -/
theorem test_ldI : (after (.ldI 0xFFF) State.reset).i = 0x0FFF := by decide

/-- V-IDX-2, V-IDX-3. -/
theorem test_addIVx : (after (.addIVx 1) (withI 0x0FFF (regs2 1 1 15 7))).i = 0x1000 ∧
    (after (.addIVx 1) (withI 0x0FFF (regs2 1 1 15 7))).reg 15 = 7 ∧
    (after (.addIVx 1) (withI 0xFFFF (State.reset.setReg 1 2))).i = 1 := by decide

/-- V-IDX-4, V-IDX-5. -/
theorem test_ldFVx : (after (.ldFVx 1) (State.reset.setReg 1 0x0A)).i = 0x82 ∧
    (after (.ldFVx 1) (State.reset.setReg 1 0x0F)).i = 0x9B := by decide

/-- V-IDX-7. -/
theorem test_ldBVx : (after (.ldBVx 1) (withI 0x300 (State.reset.setReg 1 254))).mem = [(0x300, 2), (0x301, 5), (0x302, 4)] := by
  decide

/-- V-IDX-9: the bytes before the refused address stay. -/
theorem test_ldBVx_partial : (after (.ldBVx 1) (withI 0xFFE (State.reset.setReg 1 123))).mem = [(0xFFE, 1), (0xFFF, 2)] ∧
    (after (.ldBVx 1) (withI 0xFFE (State.reset.setReg 1 123))).faultRecord.map (·.addr) = some (some 0x1000) := by decide

/-- V-IDX-11. -/
theorem test_ldMemVx : (after (.ldMemVx 3) (withI 0x300 (regs4.setReg 4 0x55))).mem =
    [(0x300, 0x11), (0x301, 0x22), (0x302, 0x33), (0x303, 0x44)] := by decide

/-- V-IDX-13. -/
theorem test_ldMemVx_partial : (after (.ldMemVx 3) (withI 0xFFE regs4)).mem = [(0xFFE, 0x11), (0xFFF, 0x22)] ∧
    (after (.ldMemVx 3) (withI 0xFFE regs4)).phase = .fault := by decide

/-- V-IDX-15. -/
theorem test_ldVxMem : (after (.ldVxMem 2)
      (withI 0x300 { State.reset.setReg 3 9 with mem := [(0x300, 2), (0x301, 5), (0x302, 4)] })).v.toList.take 4 = [2, 5, 4, 9] := by
  decide

/-- V-IDX-16: the registers before the refused address stay loaded. -/
theorem test_ldVxMem_partial : (after (.ldVxMem 1) (withI 0xFFF { State.reset.setReg 1 9 with mem := [(0xFFF, 0x77)] })).v.toList.take 2
      = [0x77, 9] ∧
    (after (.ldVxMem 1) (withI 0xFFF { State.reset.setReg 1 9 with mem := [(0xFFF, 0x77)] })).phase = .fault := by decide

/-! ## Display -/

/-- V-DRW-1. -/
theorem test_cls : (after (.cls 0) { State.reset.setReg 15 1 with fb := setCell FrameBuffer.blank 3 4 true }).fb = FrameBuffer.blank := by
  decide

/-- V-DRW-5: both axes wrap, per pixel. -/
theorem test_blit_wraps : setColumns (blit 62 31 [0xFF, 0x81] FrameBuffer.blank).1 31 = [0, 1, 2, 3, 4, 5, 62, 63] ∧
    setColumns (blit 62 31 [0xFF, 0x81] FrameBuffer.blank).1 0 = [5, 62] := by decide

/-- V-DRW-9, V-DRW-10: one overlap is a collision, a 0 bit over a set cell is none. -/
theorem test_blit_collision : (blit 0 0 [0xC0] (setCell FrameBuffer.blank 0 0 true)).2 = true ∧
    (blit 0 0 [0x40] (setCell FrameBuffer.blank 0 0 true)).2 = false := by decide

/-- V-DRW-13: the old VF gives both coordinates, and VF ends 0. -/
theorem test_drw : cell (after (.drw 15 15 1) (withI 0x300 { State.reset.setReg 15 5 with mem := [(0x300, 0x80)] })).fb 5 5 = true ∧
    (after (.drw 15 15 1) (withI 0x300 { State.reset.setReg 15 5 with mem := [(0x300, 0x80)] })).reg 15 = 0 := by decide

/-- P9: the font cannot be drawn. -/
theorem test_drw_refused : (afterWord 0xD005 (withI 0x50 State.reset)).faultRecord =
      some { cause := .memoryOutOfRange, addr := some 0x50, word := some 0xD005, pc := 0x200 } ∧
    (afterWord 0xD005 (withI 0x50 State.reset)).fb = FrameBuffer.blank := by decide

/-! ## Timers and keys -/

/-- V-TMR-5. -/
theorem test_ldVxDt : (after (.ldVxDt 1) { State.reset with dt := 7 }).reg 1 = 7 := by decide

/-- V-TMR-1. -/
theorem test_ldDtVx : (after (.ldDtVx 1) (State.reset.setReg 1 10)).dt = 10 := by decide

/-- V-TMR-6. -/
theorem test_ldStVx : (after (.ldStVx 1) (State.reset.setReg 1 2)).st = 2 ∧
    soundOn (after (.ldStVx 1) (State.reset.setReg 1 2)) = true := by decide

/-- V-TMR-2 to V-TMR-4, V-FLT-8. -/
theorem test_ticks : (tickDt { State.reset with dt := 10, dtRun := true }).dt = 9 ∧ (tickDt { State.reset with dtRun := true }).dt = 0 ∧
    (tickDt { State.reset with dt := 10 }).dt = 10 ∧ (tickDt { stopped with dt := 4, dtRun := true }).dt = 3 := by decide

/-- V-TMR-7: the timers are independent. -/
theorem test_ticks_independent : (tickSt { State.reset with dt := 5, st := 5, dtRun := true, stRun := true }).dt = 5 ∧
    (tickSt { State.reset with dt := 5, st := 5, dtRun := true, stRun := true }).st = 4 := by decide

/-- V-KEY-5: whatever the keyboard answers, pc is one of the two. -/
theorem test_skp : ∀ s : State, (after (.skp 1) s).pc = s.pc ∨ (after (.skp 1) s).pc = s.pc + 2 := by
  intro s
  show (skipIf _ s).pc = s.pc ∨ (skipIf _ s).pc = s.pc + 2
  simp only [skipIf]
  split <;> simp

/-- V-KEY-1 to V-KEY-4: SKP and SKNP at the same instant never both skip and never both fall through. -/
theorem test_skp_sknp : ∀ s : State,
    ((after (.skp 1) s).pc = s.pc + 2 ∧ (after (.sknp 1) s).pc = s.pc) ∨
    ((after (.skp 1) s).pc = s.pc ∧ (after (.sknp 1) s).pc = s.pc + 2) := by
  intro s
  show ((skipIf (keyHeldNow (s.reg 1) s) s).pc = _ ∧ (skipIf (!keyHeldNow (s.reg 1) s) s).pc = _) ∨
    ((skipIf (keyHeldNow (s.reg 1) s) s).pc = _ ∧ (skipIf (!keyHeldNow (s.reg 1) s) s).pc = _)
  cases keyHeldNow (s.reg 1) s <;> simp

/-- V-KEY-6, V-KEY-7: after the first poll V3 holds the key and the phase is RUN, or the core waits. -/
theorem test_ldVxK : ∀ s : State, ((after (.ldVxK 3) s).phase = .run ∧ ∃ k : Nibble, (after (.ldVxK 3) s).reg 3 = zext8 k) ∨
    after (.ldVxK 3) s = { s with phase := .waitKey 3 } := by
  intro s
  show ((pollKey 3 s).phase = .run ∧ ∃ k : Nibble, (pollKey 3 s).reg 3 = zext8 k) ∨ pollKey 3 s = _
  rcases pollKey_cases 3 s with ⟨k, _, h⟩ | ⟨_, h⟩ <;> rw [h]
  · exact .inl ⟨rfl, k, State.reg_setReg_same s 3 (zext8 k)⟩
  · exact .inr rfl

/-! ## Memory, faults, loading -/

/-- S2. -/
theorem test_guard : memRead 0 State.reset = none ∧ memRead 511 State.reset = none ∧ memRead 512 State.reset = some 0 ∧
    memRead 4095 State.reset = some 0 ∧ memRead 4096 State.reset = none := by decide

/-- A cell that takes the unlisted value is no longer listed. -/
theorem test_memory_canonical : Memory.write [(0x300, 7)] 0x300 0 = [] ∧
    Memory.write [(0x300, 7), (0x302, 9)] 0x301 8 = [(0x300, 7), (0x301, 8), (0x302, 9)] := by decide

/-- V-FLT-1, P10: the first step of a machine with nothing loaded. -/
theorem test_reset_step : (reached (step State.reset) State.reset).faultRecord =
      some { cause := .invalidInstruction, addr := none, word := some 0, pc := 0x200 } ∧
    (reached (step State.reset) State.reset).pc = 0x202 ∧ (reached (step State.reset) State.reset).phase = .fault := by decide

/-- V-FLT-2: the same under LENIENT_INVALID. -/
theorem test_lenient : execInvalid true 0x0000 (withPc 0x202) = withPc 0x202 := by decide

/-- V-FLT-5. -/
theorem test_fetch_below : (reached (step (withPc 0x1FE)) State.reset).faultRecord =
      some { cause := .memoryOutOfRange, addr := some 0x1FE, word := none, pc := 0x1FE } ∧
    (reached (step (withPc 0x1FE)) State.reset).pc = 0x1FE := by decide

/-- V-FLT-6. -/
theorem test_fetch_at_the_end : (reached (step (withPc 0xFFF)) State.reset).faultRecord =
      some { cause := .memoryOutOfRange, addr := some 0x1000, word := none, pc := 0xFFF } := by decide

/-- R222, V-FLT-1: the four codes, and the code the host reads. -/
theorem test_cause_codes : [FaultCause.memoryOutOfRange, .stackOverflow, .stackUnderflow, .invalidInstruction].map causeCode = [1, 2, 3, 4] ∧
    faultCode stopped = some 4 := by decide

/-- V-FLT-9. -/
theorem test_reset_leaves_fault : hostReset stopped = State.reset := by decide

/-- P7: a store is visible to the next fetch. -/
theorem test_self_modifying : (fetch (after (.ldMemVx 0)
      { State.reset.setReg 0 0x12 with i := 0x207, pc := 0x206, mem := [(0x206, 0x61), (0x207, 0xFF)] })).toOption.map (·.1)
    = some 0x6112 := by decide

/-- P1 and R264: a program of two words after boot, the font below it. -/
theorem test_boot : (fetch (boot [0x00, 0xE0, 0x60, 0x0A] stopped)).toOption.map (·.1) = some 0x00E0 ∧
    (boot [0x00, 0xE0, 0x60, 0x0A] stopped).peek 0x50 = 0xF0 ∧ (boot [0x00, 0xE0, 0x60, 0x0A] stopped).peek 0x9F = 0x80 ∧
    (boot [0x00, 0xE0, 0x60, 0x0A] stopped).dtRun = true := by decide +kernel

/-- The font table of R74: 80 bytes, and the glyph of 7. -/
theorem test_font : fontBytes.length = 80 ∧ (fontBytes.drop 35).take 5 = [0xF0, 0x10, 0x20, 0x40, 0x40] := by decide

/-! ## Witnesses: states and operands that meet the hypotheses of each obligation that has some, clause by clause

Where a clause asks what the keyboard answers (a free value), the witness is that one of the two clauses always applies. -/

/-- A running state whose next word is DRW V1, V2, 5. -/
def ready : State := State.reset.withFetchWord 16 0xD125

/-- A state with one sprite byte 0x80 at I. -/
def oneDot : State := withI 0x300 { State.reset with mem := [(0x300, 0x80)] }

/-- The same with the cell under the dot set. -/
def oneDotOverSet : State := { oneDot with fb := setCell FrameBuffer.blank 0 0 true }

theorem witness_DecodeOfEncodeIsIdentity : wellFormed (.cls 15) = true ∧ wellFormed (.drw 15 15 15) = true := by decide

theorem witness_EncodeOfDecodeIsIdentity : decode 0x0FEE = .instr (.ret 15) := by decide

theorem witness_DecodeFollowsOpcodeRows :
    (∃ r ∈ opcodeRows, (0xD125 : Word) &&& r.mask = r.pattern) ∧ ∀ r ∈ opcodeRows, (0x5AB1 : Word) &&& r.mask ≠ r.pattern := by
  refine ⟨⟨⟨"DRW", 0xF000, 0xD000⟩, by decide, by decide⟩, by decide⟩

theorem witness_ResetLeavesSpecValues : ∃ t s : State, t = hostReset s ∧ s.phase = .fault := ⟨_, stopped, rfl, rfl⟩

theorem witness_BootFetchesFirstProgramWord :
    ([] : List Byte).length ≤ 3584 ∧ (List.replicate 3584 (0x60 : Byte)).length ≤ 3584 :=
  ⟨Nat.zero_le _, by rw [List.length_replicate]⟩

/-- The boundary addresses of the clause on the rest of memory. -/
theorem witness_BootFetchesFirstProgramWord_rest : ((0x4F : Nat) < 0x50 ∨ 0x9F < 0x4F) ∧ ((0xA0 : Nat) < 0x50 ∨ 0x9F < 0xA0) ∧
    (∀ k < [(0x60 : Byte)].length, 511 ≠ 512 + k) ∧ (∀ k < [(0x60 : Byte)].length, 513 ≠ 512 + k) ∧ 79 < fontBytes.length ∧
    0 < [(0x60 : Byte)].length := by decide

theorem witness_LoadProgramStoresOrStops_fits : ∃ bytes : List Byte, bytes.length = 3584 ∧ bytes.length ≤ 3584 ∧
    3583 < bytes.length ∧ (∀ k < bytes.length, 511 ≠ 512 + k) ∧ ∀ k < bytes.length, 4096 ≠ 512 + k :=
  ⟨List.replicate 3584 1, List.length_replicate, by rw [List.length_replicate], by rw [List.length_replicate]; omega,
    fun k _ => by omega, fun k h => by rw [List.length_replicate] at h; omega⟩

theorem witness_LoadProgramStoresOrStops_long : ∃ bytes : List Byte, bytes.length = 3585 ∧ 3584 < bytes.length ∧
    3583 < bytes.length ∧ ¬ allowed 511 ∧ ¬ allowed 4096 :=
  ⟨List.replicate 3585 1, List.length_replicate, by rw [List.length_replicate]; omega,
    by rw [List.length_replicate]; omega, by unfold allowed; omega, by unfold allowed; omega⟩

theorem witness_LoadFontWritesReservedTable : 79 < fontBytes.length ∧ ((0x4F : Nat) < 0x50 ∨ 0x9F < 0x4F) ∧
    ((0xA0 : Nat) < 0x50 ∨ 0x9F < 0xA0) := by decide

theorem witness_GuardedAccessReadsAndWritesOneCell : ¬ allowed 511 ∧ allowed 512 ∧ allowed 4095 ∧ ¬ allowed 4096 ∧ (513 : Nat) ≠ 512 := by
  unfold allowed; omega

theorem witness_FetchIsBigEndianAndGuarded :
    (512 ≤ (withPc 512).pc.toNat ∧ (withPc 512).pc.toNat ≤ 4094) ∧ (512 ≤ (withPc 4094).pc.toNat ∧ (withPc 4094).pc.toNat ≤ 4094) ∧
    (withPc 511).pc.toNat < 512 ∧ 4096 ≤ (withPc 4096).pc.toNat ∧ 4096 ≤ (withPc 65535).pc.toNat ∧ (withPc 4095).pc.toNat = 4095 := by
  decide

theorem witness_StepRunsDecodedInstruction : ready.phase = .run ∧ 512 ≤ ready.pc.toNat ∧ ready.pc.toNat ≤ 4094 ∧
    decode (wordAtPc ready) = .instr (.drw 1 2 5) := by decide

theorem witness_StepStopsOnRefusedFetch : (withPc 511).phase = .run ∧ (withPc 511).pc.toNat < 512 ∧
    (withPc 4096).phase = .run ∧ 4096 ≤ (withPc 4096).pc.toNat ∧ (withPc 4095).phase = .run ∧ (withPc 4095).pc.toNat = 4095 := by
  decide

theorem witness_StepStopsOnInvalidWord : State.reset.phase = .run ∧ 512 ≤ State.reset.pc.toNat ∧ State.reset.pc.toNat ≤ 4094 ∧
    decode (wordAtPc State.reset) = .invalid (wordAtPc State.reset) := by decide

theorem witness_StepInWaitKeyPollsOnce : waiting.phase = .waitKey 3 ∧
    ((∃ k, Config.keyWait waiting.instant = some k) ∨ Config.keyWait waiting.instant = none) := by
  refine ⟨rfl, ?_⟩
  cases Config.keyWait waiting.instant
  · exact .inr rfl
  · exact .inl ⟨_, rfl⟩

theorem witness_StepInFaultChangesOnlyTimers : stopped.phase = .fault ∧ stopped.dtRun = false ∧ stopped.stRun = false := ⟨rfl, rfl, rfl⟩

theorem witness_InvariantKeptByStep : Machine.Inv stopped ∧ Machine.Inv (withStack 16) ∧ (∃ t, step stopped = .next t) ∧
    ∃ t, step (withStack 16) = .next t := by
  refine ⟨?_, ?_, ⟨_, rfl⟩, ⟨_, rfl⟩⟩ <;> (unfold Machine.Inv; decide)

theorem witness_ReservedMemoryIsNeverWritten : (∃ t, step ready = .next t) ∧ ¬ allowed 0x50 ∧ ¬ allowed 4096 :=
  ⟨⟨_, rfl⟩, by unfold allowed; omega, by unfold allowed; omega⟩

theorem witness_OnlyBlockStoresWriteMemory :
    (∃ t, exec (.ldBVx 1) (withI 0x300 (State.reset.setReg 1 254)) = .next t ∧
      t.peek 0x302 ≠ (withI 0x300 (State.reset.setReg 1 254)).peek 0x302) ∧
    (∃ t, exec (.ldMemVx 3) (withI 0xFFE regs4) = .next t ∧ t.peek 0xFFF ≠ (withI 0xFFE regs4).peek 0xFFF) :=
  ⟨⟨_, rfl, by decide⟩, ⟨_, rfl, by decide⟩⟩

theorem witness_EachUnitHasItsOwnWriters : (∃ t, exec (.ldImm 1 5) State.reset = .next t) ∧ ¬ writesDisplay (.ldImm 1 5) ∧
    ¬ changesStack (.ldImm 1 5) ∧ ¬ writesIndex (.ldImm 1 5) ∧ ¬ writesPc (.ldImm 1 5) ∧
    (∀ x, Instr.ldImm 1 5 ≠ .ldDtVx x) ∧ ∀ x, Instr.ldImm 1 5 ≠ .ldStVx x :=
  ⟨⟨_, rfl⟩, by simp [writesDisplay], by simp [changesStack], by simp [writesIndex], by simp [writesPc], by simp, by simp⟩

theorem witness_RegisterWritesFollowTable : (∃ t, exec (.addReg 1 2) State.reset = .next t) ∧ ¬ writesReg (.addReg 1 2) 2 ∧
    (∃ t, exec (.ldVxMem 3) (withI 0x300 State.reset) = .next t) ∧ ¬ writesReg (.ldVxMem 3) 4 :=
  ⟨⟨_, rfl⟩, by simp [writesReg], ⟨_, rfl⟩, by simp [writesReg]⟩

theorem witness_FaultRecordTellsWordAndPc_fetched : ∃ t, State.reset.phase = .run ∧ step State.reset = .next t ∧ t.phase = .fault ∧
    512 ≤ State.reset.pc.toNat ∧ State.reset.pc.toNat ≤ 4094 := ⟨_, rfl, rfl, rfl, by decide, by decide⟩

theorem witness_FaultRecordTellsWordAndPc_refused : ∃ t, (withPc 4095).phase = .run ∧ step (withPc 4095) = .next t ∧ t.phase = .fault ∧
    ¬ (512 ≤ (withPc 4095).pc.toNat ∧ (withPc 4095).pc.toNat ≤ 4094) := ⟨_, rfl, rfl, rfl, by decide⟩

theorem witness_FaultCauseFitsInstruction : (withStack 16).phase = .run ∧
    (∃ t, exec (.call 0x300) (withStack 16) = .next t ∧ t.phase = .fault) ∧ State.reset.phase = .run ∧
    ∃ t, exec (.ldVxMem 0) State.reset = .next t ∧ t.phase = .fault ∧ t.faultRecord.map (·.cause) = some .memoryOutOfRange :=
  ⟨rfl, ⟨_, rfl, rfl⟩, rfl, ⟨_, rfl, rfl, rfl⟩⟩

theorem witness_TimerSetThenTenTicksIsZero : (State.reset.setReg 1 10).reg 1 = 10 := by decide

theorem witness_TimersNeverRiseOnTheirOwn : (∃ t, step ready = .next t) ∧
    (∀ x, ready.phase = .run → decode (wordAtPc ready) ≠ .instr (.ldDtVx x)) ∧
    ∀ x, ready.phase = .run → decode (wordAtPc ready) ≠ .instr (.ldStVx x) :=
  ⟨⟨_, rfl⟩, by decide, by decide⟩

theorem witness_RetPopsOrUnderflows : (withStack 1).stack = 0x0202 :: [] ∧ State.reset.stack = [] := ⟨rfl, rfl⟩

theorem witness_JpSetsPc : (0x1FF : Addr12).toNat < 0x200 ∧ (0xFFF : Addr12) = 0xFFF := by decide

theorem witness_CallPushesOrOverflows : (withStack 15).sp < 16 ∧ (14 : Nat) < (withStack 15).sp ∧ 16 ≤ (withStack 16).sp := by decide

theorem witness_RetUndoesCall : (withStack 15).sp < 16 := by decide

theorem witness_SkipsOnRegisterComparison : (0x1 : Nibble) ≠ 0 ∧ (0xF : Nibble) ≠ 0 := by decide

/-- For the five flag writers: AddRegSetsCarry, SubSetsNoBorrow, SubnSetsNoBorrow, ShrHalvesAndReportsBit, ShlDoublesAndReportsBit. -/
theorem witness_flag_writers : (14 : Reg) ≠ 15 ∧ (0 : Reg) ≠ 15 := by decide

theorem witness_RndMasksTheRandomByte : (0x0F : Byte).getLsbD 7 = false := by decide

theorem witness_LdFPointsAtGlyph : ((State.reset.setReg 1 15).reg 1).toNat ≤ 15 ∧ 15 < ((State.reset.setReg 1 16).reg 1).toNat := by
  decide

theorem witness_LdBStoresDigits : blockAllowed (withI 4093 State.reset) 3 ∧ blockAllowed (withI 512 State.reset) 3 ∧
    firstRefused (withI 0xFFE State.reset) 3 2 ∧ (0 : Nat) < 2 ∧ (1 : Nat) < 2 ∧ firstRefused (withI 511 State.reset) 3 0 := by
  unfold blockAllowed firstRefused allowed; decide

/-- For LdMemStoresRegisters and LdVxMemLoadsRegisters. -/
theorem witness_block_transfers : blockAllowed (withI 4095 State.reset) ((0 : Reg).toNat + 1) ∧
    blockAllowed (withI 4080 State.reset) ((15 : Reg).toNat + 1) ∧ firstRefused (withI 4081 State.reset) ((15 : Reg).toNat + 1) 15 ∧
    (14 : Reg).toNat < 15 ∧ firstRefused (withI 0x50 State.reset) ((0 : Reg).toNat + 1) 0 := by
  unfold blockAllowed firstRefused allowed; decide

/-- The state the load starts from has other registers than the one that was stored. -/
theorem witness_LoadAfterStoreRestoresRegisters : blockAllowed (withI 0x300 regs4) ((3 : Reg).toNat + 1) ∧
    ∃ t, exec (.ldMemVx 3) (withI 0x300 regs4) = .next t ∧ ∃ u : State, u.mem = t.mem ∧ u.i = (withI 0x300 regs4).i ∧
      u.reg 1 ≠ regs4.reg 1 :=
  ⟨by unfold blockAllowed allowed; decide, _, rfl,
    { State.reset with mem := (after (.ldMemVx 3) (withI 0x300 regs4)).mem, i := 0x300 }, rfl, rfl, by decide⟩

/-- For BlitTogglesCoveredCells and DrawingTwiceRestores. -/
theorem witness_blit : (List.replicate 32 (0xFF : Byte)).length ≤ 32 ∧ ([] : List Byte).length ≤ 32 := by decide

theorem witness_DrwDrawsSprite : blockAllowed State.reset (0 : Nibble).toNat ∧ blockAllowed (withI 4081 State.reset) (15 : Nibble).toNat := by
  unfold blockAllowed allowed; decide

/-- The clause with a covered set cell. -/
theorem witness_DrwDrawsSprite_collision : blockAllowed oneDotOverSet (1 : Nibble).toNat ∧
    ∃ row col, cell oneDotOverSet.fb row col = true ∧
      covers (oneDotOverSet.reg 0).toNat (oneDotOverSet.reg 1).toNat (spriteAt oneDotOverSet (1 : Nibble).toNat) row col :=
  ⟨by unfold blockAllowed allowed; decide, 0, 0, by decide, 0, by decide, 0, by decide, by decide, by decide, by decide⟩

/-- The clause with none. -/
theorem witness_DrwDrawsSprite_noCollision : blockAllowed oneDot (1 : Nibble).toNat ∧
    ¬ ∃ row col, cell oneDot.fb row col = true ∧
      covers (oneDot.reg 0).toNat (oneDot.reg 1).toNat (spriteAt oneDot (1 : Nibble).toNat) row col := by
  refine ⟨by unfold blockAllowed allowed; decide, ?_⟩
  rintro ⟨row, col, h, _⟩
  exact absurd h (by rw [show oneDot.fb = FrameBuffer.blank from rfl, cell_blank]; simp)

theorem witness_DrwStopsWithoutDrawing : firstRefused (withI 0xFFF State.reset) (2 : Nibble).toNat 1 ∧
    firstRefused (withI 0x50 State.reset) (5 : Nibble).toNat 0 := by
  unfold firstRefused allowed; decide

theorem witness_LdVxKLoadsOrWaits : State.reset.phase = .run ∧
    ((∃ k, Config.keyWait State.reset.instant = some k) ∨ Config.keyWait State.reset.instant = none) := by
  refine ⟨rfl, ?_⟩
  cases Config.keyWait State.reset.instant
  · exact .inr rfl
  · exact .inl ⟨_, rfl⟩

end Sys2Proof.Tests
end

section
/-! # SUPPORT. What each instruction can change

One inversion lemma for the control transfers that touch the stack, and one frame of all 34 instructions, from which the
units' writers, the timers and the invariant follow. -/

namespace Sys2Proof.Machine

/-! ## The instructions that can stop the core, and the wait for a key -/

/-- Everything RET can do (spec/40_flow.md R121). -/
theorem exec_ret_cases (x : Nibble) (s : State) :
    (s.stack = [] ∧ exec (.ret x) s = .next (raiseAt .stackUnderflow none (encode (.ret x)) s)) ∨
    (∃ a rest, s.stack = a :: rest ∧ exec (.ret x) s = .next { s with pc := a, stack := rest }) := by
  unfold exec execRet
  rcases pop_cases s with ⟨hs, hp⟩ | ⟨a, rest, hs, hp⟩
  · exact .inl ⟨hs, by simp only [hp]⟩
  · exact .inr ⟨a, rest, hs, by simp only [hp]; rfl⟩

/-- Everything CALL can do (spec/40_flow.md R123). -/
theorem exec_call_cases (nnn : Addr12) (s : State) :
    (16 ≤ s.sp ∧ exec (.call nnn) s = .next (raiseAt .stackOverflow none (encode (.call nnn)) s)) ∨
    (s.sp < 16 ∧ exec (.call nnn) s = .next { s with pc := addrOperand nnn, stack := s.pc :: s.stack }) := by
  unfold exec execCall
  rcases push_cases s.pc s with ⟨hs, hp⟩ | ⟨hs, hp⟩
  · exact .inl ⟨hs, by simp only [hp]⟩
  · exact .inr ⟨hs, by simp only [hp]; rfl⟩

/-- Settles O33: with fewer than sixteen entries CALL pushes pc, and RET pops it. -/
theorem retUndoesCall : Obligations.RetUndoesCall := by
  intro nnn x s hsp
  rcases exec_call_cases nnn s with ⟨hfull, _⟩ | ⟨_, hcall⟩
  · exact absurd hsp (Nat.not_lt.2 hfull)
  · exact ⟨_, hcall, rfl⟩

/-- Everything DRW can do (spec/43_display.md R191). -/
theorem exec_drw_cases (x y : Reg) (n : Nibble) (s : State) :
    (∃ a, exec (.drw x y n) s = .next (raiseAt .memoryOutOfRange (some a) (encode (.drw x y n)) s)) ∨
    (∃ sprite, exec (.drw x y n) s = .next (drawSprite (s.reg x) (s.reg y) sprite s)) := by
  unfold exec execDrw
  dsimp only
  split
  · exact .inl ⟨_, rfl⟩
  · exact .inr ⟨_, rfl⟩

/-- `Fx55` is its run of stores: under MEMOPS_INC_I = unchanged no update of I follows (decision D6). -/
theorem exec_ldMemVx (x : Reg) (s : State) :
    exec (.ldMemVx x) s = .next (finishRun (.ldMemVx x) (storeBytes (effAddr s 0) (regBytes x s) s)) :=
  congrArg (fun p => Host.Outcome.next (finishRun (.ldMemVx x) p)) (bumpIndex_unchanged x _)

/-- `Fx65` is its run of loads, with no update of I after it (decision D6). -/
theorem exec_ldVxMem (x : Reg) (s : State) :
    exec (.ldVxMem x) s = .next (finishRun (.ldVxMem x) (loadRegs (effAddr s 0) 0 (x.toNat + 1) s)) :=
  congrArg (fun p => Host.Outcome.next (finishRun (.ldVxMem x) p)) (bumpIndex_unchanged x _)

/-- One poll of the keyboard touches nothing but registers and the phase. -/
theorem pollKey_frame (x : Reg) (s : State) :
    pollKey x s = { s with v := (pollKey x s).v, phase := (pollKey x s).phase } := by
  rcases pollKey_cases x s with ⟨k, _, h⟩ | ⟨_, h⟩
  · rw [h]; rfl
  · rw [h]

/-! ## The frame of every instruction -/

/-- `s` with the fields instruction `i` may write taken from `t`. -/
def withWrites (i : Instr) (s t : State) : State :=
  match i with
  | .cls _ => { s with fb := t.fb }
  | .ret _ | .call _ => { s with pc := t.pc, stack := t.stack, phase := t.phase, faultRecord := t.faultRecord }
  | .jp _ | .jpV0 _ | .seImm _ _ | .sneImm _ _ | .seReg _ _ | .sneReg _ _ | .skp _ | .sknp _ => { s with pc := t.pc }
  | .ldImm _ _ | .addImm _ _ | .ldReg _ _ | .orReg _ _ | .andReg _ _ | .xorReg _ _ | .addReg _ _ | .sub _ _
  | .shr _ _ | .subn _ _ | .shl _ _ | .rnd _ _ | .ldVxDt _ => { s with v := t.v }
  | .ldI _ | .addIVx _ | .ldFVx _ => { s with i := t.i }
  | .drw _ _ _ => { s with v := t.v, fb := t.fb, phase := t.phase, faultRecord := t.faultRecord }
  | .ldVxK _ => { s with v := t.v, phase := t.phase }
  | .ldDtVx _ => { s with dt := t.dt }
  | .ldStVx _ => { s with st := t.st }
  | .ldBVx _ | .ldMemVx _ => { s with mem := t.mem, phase := t.phase, faultRecord := t.faultRecord }
  | .ldVxMem _ => { s with v := t.v, phase := t.phase, faultRecord := t.faultRecord }

/-- An instruction changes no field but those `withWrites` names. -/
theorem exec_frame {i : Instr} {s t : State} (h : exec i s = .next t) : t = withWrites i s t := by
  cases i
  case ret x =>
    rcases exec_ret_cases x s with ⟨_, e⟩ | ⟨a, rest, _, e⟩ <;> cases e.symm.trans h <;> rfl
  case call nnn =>
    rcases exec_call_cases nnn s with ⟨_, e⟩ | ⟨_, e⟩ <;> cases e.symm.trans h <;> rfl
  case drw x y n =>
    rcases exec_drw_cases x y n s with ⟨a, e⟩ | ⟨sprite, e⟩ <;> cases e.symm.trans h <;> rfl
  case ldVxK x => cases h; exact pollKey_frame x s
  case ldBVx x => cases h; rw [finishRun_frame, storeBytes_frame]; rfl
  case ldMemVx x => cases (exec_ldMemVx x s).symm.trans h; rw [finishRun_frame, storeBytes_frame]; rfl
  case ldVxMem x => cases (exec_ldVxMem x s).symm.trans h; rw [finishRun_frame, loadRegs_frame]; rfl
  all_goals cases h; rfl

/-! ## The writers of each unit (spec/10_state.md R25 to R27, R30 to R32) -/

theorem exec_fb {i : Instr} {s t : State} (h : exec i s = .next t) (hw : ¬ writesDisplay i) : t.fb = s.fb := by
  rw [exec_frame h]
  cases i
  case cls x => exact absurd (.inl ⟨x, rfl⟩) hw
  case drw x y n => exact absurd (.inr ⟨x, y, n, rfl⟩) hw
  all_goals rfl

theorem exec_stack {i : Instr} {s t : State} (h : exec i s = .next t) (hw : ¬ changesStack i) : t.stack = s.stack := by
  rw [exec_frame h]
  cases i
  case ret x => exact absurd (.inl ⟨x, rfl⟩) hw
  case call nnn => exact absurd (.inr ⟨nnn, rfl⟩) hw
  all_goals rfl

theorem exec_i {i : Instr} {s t : State} (h : exec i s = .next t) (hw : ¬ writesIndex i) : t.i = s.i := by
  rw [exec_frame h]
  cases i
  case ldI nnn => exact absurd (.inl ⟨nnn, rfl⟩) hw
  case addIVx x => exact absurd (.inr (.inl ⟨x, rfl⟩)) hw
  case ldFVx x => exact absurd (.inr (.inr ⟨x, rfl⟩)) hw
  all_goals rfl

theorem exec_pc {i : Instr} {s t : State} (h : exec i s = .next t) (hw : ¬ writesPc i) : t.pc = s.pc := by
  rw [exec_frame h]
  cases i
  case ret | jp | call | jpV0 | seImm | sneImm | seReg | sneReg | skp | sknp => simp [writesPc] at hw
  all_goals rfl

theorem exec_dt {i : Instr} {s t : State} (h : exec i s = .next t) (hw : ∀ x, i ≠ .ldDtVx x) : t.dt = s.dt := by
  rw [exec_frame h]
  cases i
  case ldDtVx x => exact absurd rfl (hw x)
  all_goals rfl

theorem exec_st {i : Instr} {s t : State} (h : exec i s = .next t) (hw : ∀ x, i ≠ .ldStVx x) : t.st = s.st := by
  rw [exec_frame h]
  cases i
  case ldStVx x => exact absurd rfl (hw x)
  all_goals rfl

/-- No instruction writes a run bit, and the count of steps is not an instruction's either. -/
theorem exec_dtRun_stRun_instant {i : Instr} {s t : State} (h : exec i s = .next t) :
    t.dtRun = s.dtRun ∧ t.stRun = s.stRun ∧ t.instant = s.instant := by
  rw [exec_frame h]
  cases i <;> exact ⟨rfl, rfl, rfl⟩

/-- Settles O22: the frame of every instruction, read off unit by unit. -/
theorem eachUnitHasItsOwnWriters : Obligations.EachUnitHasItsOwnWriters := fun _ _ _ h =>
  ⟨exec_fb h, exec_stack h, exec_i h, exec_pc h, exec_dt h, exec_st h, exec_dtRun_stRun_instant h⟩

/-! ## The writers of the general registers (spec/10_state.md R24) -/

/-- A run of loads, refused or not, leaves the registers above it alone. -/
theorem loadRegs_reg_above (base k n : Nat) (s : State) (r : Reg) (h : k + n ≤ r.toNat) :
    (loadRegs base k n s).1.reg r = s.reg r := by
  induction n generalizing k s with
  | zero => rfl
  | succ n ih =>
    unfold loadRegs
    cases memRead (base + k) s with
    | none => rfl
    | some b =>
      have := r.isLt
      exact (ih (k + 1) _ (by omega)).trans (State.reg_setReg_ne _ _ _ _ (ofNat4_ne r k (by omega) (by omega)))

theorem finishRun_reg (i : Instr) (p : State × Option Nat) (r : Reg) : (finishRun i p).reg r = p.1.reg r := by
  rw [finishRun_frame]; rfl

theorem drawSprite_reg_ne (cx cy : Byte) (sprite : List Byte) (s : State) (r : Reg) (h : r ≠ 15) :
    (drawSprite cx cy sprite s).reg r = s.reg r :=
  State.reg_setReg_ne _ _ _ _ h

theorem pollKey_reg_ne (x : Reg) (s : State) (r : Reg) (h : r ≠ x) : (pollKey x s).reg r = s.reg r := by
  rcases pollKey_cases x s with ⟨k, _, e⟩ | ⟨_, e⟩ <;> rw [e]
  · exact State.reg_setReg_ne s x r _ h
  · rfl

/-- Settles O23: by the form of the register write, one register, result and flag, VF alone, a run of loads, or none. -/
theorem registerWritesFollowTable : Obligations.RegisterWritesFollowTable := by
  intro i s t r h hr
  cases i
  case ldImm | addImm | ldReg | orReg | andReg | xorReg | rnd | ldVxDt =>
    cases h; exact State.reg_setReg_ne _ _ _ _ hr
  case addReg | sub | subn | shr | shl =>
    obtain ⟨hx, hf⟩ := not_or.1 hr
    cases h; exact writeFlagged_other _ _ _ _ _ hx hf
  case drw x y n =>
    rcases exec_drw_cases x y n s with ⟨a, e⟩ | ⟨sprite, e⟩ <;> cases e.symm.trans h
    · rfl
    · exact drawSprite_reg_ne _ _ _ _ _ hr
  case ldVxK x => cases h; exact pollKey_reg_ne x s r hr
  case ldVxMem x =>
    cases (exec_ldVxMem x s).symm.trans h
    rw [finishRun_reg]
    exact loadRegs_reg_above _ 0 _ s r (by have := Nat.lt_of_not_le hr; omega)
  all_goals rw [exec_frame h]; rfl

end Sys2Proof.Machine
end

section
/-! # SUPPORT. Ticks, one after another, and the timers over a step (spec/60_exceptions.md R240 to R242). -/

namespace Sys2Proof.Machine

/-- Ticks of the delay timer are ticks of its cell, and touch nothing else. -/
theorem tickDt_iterate (k : Nat) (s : State) : tickDt^[k] s = { s with dt := (tickCell s.dtRun)^[k] s.dt } := by
  induction k generalizing s with
  | zero => rfl
  | succ k ih => rw [Function.iterate_succ_apply, ih]; rfl

/-- Ticks of the sound timer are ticks of its cell, and touch nothing else. -/
theorem tickSt_iterate (k : Nat) (s : State) : tickSt^[k] s = { s with st := (tickCell s.stRun)^[k] s.st } := by
  induction k generalizing s with
  | zero => rfl
  | succ k ih => rw [Function.iterate_succ_apply, ih]; rfl

/-- Settles O28: `afterTicks` is the ticks one by one, of each timer on its own. -/
theorem timePassesInWholeTicks : Obligations.TimePassesInWholeTicks := by
  intro s
  rw [tickSt_iterate, tickDt_iterate, elapse, afterTicks_eq_iterate, afterTicks_eq_iterate]

theorem elapse_dt_le (s : State) : (elapse s).dt.toNat ≤ s.dt.toNat := afterTicks_le _ _ _

theorem elapse_st_le (s : State) : (elapse s).st.toNat ≤ s.st.toNat := afterTicks_le _ _ _

/-- A core step leaves DT alone, unless it runs `Fx15`, and ST, unless it runs `Fx18`. -/
theorem coreStep_timers {s t : State} (h : coreStep s = .next t) :
    ((∀ x, s.phase = .run → decode (wordAtPc s) ≠ .instr (.ldDtVx x)) → t.dt = s.dt) ∧
    ((∀ x, s.phase = .run → decode (wordAtPc s) ≠ .instr (.ldStVx x)) → t.st = s.st) := by
  rcases coreStep_cases s with ⟨_, e⟩ | ⟨x, _, e⟩ | ⟨a, _, _, _, e⟩ | ⟨w, _, _, _, e⟩ | ⟨i, hrun, _, hd, e⟩
  · cases e.symm.trans h; exact ⟨fun _ => rfl, fun _ => rfl⟩
  · cases e.symm.trans h; rw [pollKey_frame]; exact ⟨fun _ => rfl, fun _ => rfl⟩
  · cases e.symm.trans h; exact ⟨fun _ => rfl, fun _ => rfl⟩
  · cases e.symm.trans h; exact ⟨fun _ => rfl, fun _ => rfl⟩
  · have hi := e.symm.trans h
    refine ⟨fun hw => ?_, fun hw => ?_⟩
    · exact (exec_dt hi fun x hx => hw x hrun (hx ▸ hd) :)
    · exact (exec_st hi fun x hx => hw x hrun (hx ▸ hd) :)

/-- Settles O29: the core step leaves the timer alone, and time only takes it down. -/
theorem timersNeverRiseOnTheirOwn : Obligations.TimersNeverRiseOnTheirOwn := by
  intro s u h
  obtain ⟨t, ht, rfl⟩ := (step_next_iff s u).1 h
  obtain ⟨hdt, hst⟩ := coreStep_timers ht
  exact ⟨fun hw => hdt hw ▸ elapse_dt_le t, fun hw => hst hw ▸ elapse_st_le t⟩

end Sys2Proof.Machine
end

section
/-! # SUPPORT. The step in phase RUN (spec/10_state.md R20, R21). -/

namespace Sys2Proof.Machine

/-- In phase RUN, where the fetch succeeds, the core step is the decoded instruction (spec/10_state.md R21). -/
theorem coreStep_of_decode {s : State} {i : Instr} (hrun : s.phase = .run) (hlo : 512 ≤ s.pc.toNat)
    (hhi : s.pc.toNat ≤ 4094) (hd : decode (wordAtPc s) = .instr i) : coreStep s = exec i { s with pc := s.pc + 2 } := by
  simp [coreStep, hrun, fetch_ok s hlo hhi, hd]

/-- Settles O12: the meaning of every instruction answers a next state, and time passes after it. -/
theorem stepRunsDecodedInstruction : Obligations.StepRunsDecodedInstruction := by
  intro s i hrun hlo hhi hd
  obtain ⟨t, ht⟩ := exec_answers_next i { s with pc := s.pc + 2 }
  simp only [step_of_coreStep ((coreStep_of_decode hrun hlo hhi hd).trans ht), ht]

end Sys2Proof.Machine
end

section
/-! # SUPPORT. The invariant of the machine over a step (spec/10_state.md R27, R35, R36; spec/20_memory.md R60). -/

namespace Sys2Proof.Machine

/-- Time passes within the invariant. -/
theorem inv_elapse {s : State} (h : Inv s) : Inv (elapse s) := h

/-- A raise of any cause keeps the invariant: the phase and the record are set together. -/
theorem inv_raise {s : State} (c : FaultCause) (a : Option Nat) (w : Option Word) (p : Word) (h : Inv s) :
    Inv (raise c a w p s) := by
  obtain ⟨hmem, hsp, _⟩ := h
  exact ⟨hmem, hsp, by simp⟩

/-- Outside phase FAULT no fault is recorded. -/
theorem Inv.faultRecord_eq_none {s : State} (h : Inv s) (hp : s.phase ≠ .fault) : s.faultRecord = none := by
  obtain ⟨_, _, hrec⟩ := h
  simpa using mt hrec.2 hp

theorem inv_pollKey {s : State} (x : Reg) (h : Inv s) (hp : s.phase ≠ .fault) : Inv (pollKey x s) := by
  have hnone := h.faultRecord_eq_none hp
  obtain ⟨hmem, hsp, _⟩ := h
  rcases pollKey_cases x s with ⟨k, _, e⟩ | ⟨_, e⟩ <;> rw [e] <;> exact ⟨hmem, hsp, by simp [hnone]⟩

/-- Every instruction keeps the canonical form of memory. -/
theorem exec_mem_wf {i : Instr} {s t : State} (h : exec i s = .next t) (hwf : s.mem.wf = true) : t.mem.wf = true := by
  rcases exec_mem i s t h with e | ⟨x, _, e⟩ | ⟨x, _, e⟩ <;> rw [e]
  · exact hwf
  · exact storeBytes_wf _ _ _ hwf
  · exact storeBytes_wf _ _ _ hwf

/-- Every instruction keeps the stack within its sixteen entries: only CALL pushes, and only below sixteen. -/
theorem exec_sp_le {i : Instr} {s t : State} (h : exec i s = .next t) (hsp : s.sp ≤ 16) : t.sp ≤ 16 := by
  by_cases hw : changesStack i
  · rcases hw with ⟨x, rfl⟩ | ⟨nnn, rfl⟩
    · rcases exec_ret_cases x s with ⟨_, e⟩ | ⟨a, rest, hs, e⟩ <;> cases e.symm.trans h
      · exact hsp
      · simp only [State.sp, hs, List.length_cons] at hsp ⊢; omega
    · rcases exec_call_cases nnn s with ⟨_, e⟩ | ⟨hlt, e⟩ <;> cases e.symm.trans h
      · exact hsp
      · exact hlt
  · simpa only [State.sp, exec_stack h hw] using hsp

/-- In phase RUN every instruction enters phase FAULT exactly with a record. -/
theorem exec_fault_iff {i : Instr} {s t : State} (h : exec i s = .next t) (hrun : s.phase = .run)
    (hnone : s.faultRecord = none) : t.phase = .fault ↔ t.faultRecord.isSome = true := by
  rcases exec_status i s t h with ⟨hp, hr⟩ | ⟨x, _, hr, hp | hp⟩ | ⟨c, a, _, hp, hr, _⟩
  · simp [hp, hr, hrun, hnone]
  · simp [hp, hr, hnone]
  · simp [hp, hr, hnone]
  · simp [hp, hr]

theorem inv_exec {i : Instr} {s t : State} (h : exec i s = .next t) (hrun : s.phase = .run) (hinv : Inv s) : Inv t := by
  have hnone := hinv.faultRecord_eq_none (by simp [hrun])
  obtain ⟨hmem, hsp, _⟩ := hinv
  exact ⟨exec_mem_wf h hmem, exec_sp_le h hsp, exec_fault_iff h hrun hnone⟩

/-- Every core step keeps the invariant, by phase and by what the fetch gives. -/
theorem inv_coreStep {s t : State} (hinv : Inv s) (h : coreStep s = .next t) : Inv t := by
  rcases coreStep_cases s with ⟨_, e⟩ | ⟨x, hwait, e⟩ | ⟨a, _, _, _, e⟩ | ⟨w, _, _, _, e⟩ | ⟨i, hrun, _, _, e⟩
  · cases e.symm.trans h; exact hinv
  · cases e.symm.trans h; exact inv_pollKey x hinv (by simp [hwait])
  · cases e.symm.trans h; exact inv_raise _ _ _ _ hinv
  · cases e.symm.trans h
    exact inv_raise (s := { s with pc := s.pc + 2 }) _ _ _ _ hinv
  · exact inv_exec (e.symm.trans h) hrun hinv

/-- Settles O19: a step is a core step, which keeps the invariant, and then time. -/
theorem invariantKeptByStep : Obligations.InvariantKeptByStep := by
  intro s u hinv h
  obtain ⟨t, ht, rfl⟩ := (step_next_iff s u).1 h
  exact inv_elapse (inv_coreStep hinv ht)

end Sys2Proof.Machine
end

section
/-! # SUPPORT. Reset, loading and boot (spec/10_state.md R40; spec/20_memory.md R71, R72; spec/70_reset_and_hazards.md R260,
R264). -/

namespace Sys2Proof.Machine

/-! ## Reset -/

@[simp] theorem hostReset_reg (s : State) (r : Reg) : (hostReset s).reg r = 0 := Vector.getElem_replicate _

@[simp] theorem hostReset_peek (s : State) (a : Nat) : (hostReset s).peek a = 0 := rfl

/-- Settles O6: power-on is a reset too, and a reset leaves the same values in every state. -/
theorem resetLeavesSpecValues : Obligations.ResetLeavesSpecValues := by
  intro t ht
  obtain ⟨s, rfl⟩ : ∃ s, t = hostReset s := ht.elim (fun h => ⟨State.reset, h⟩) id
  exact ⟨hostReset_reg s, rfl, rfl, rfl, rfl, rfl, rfl, rfl, cell_blank, hostReset_peek s, rfl, rfl⟩

/-! ## Loading the font (spec/20_memory.md R71, R74) -/

@[simp] theorem fontBytes_length : fontBytes.length = 80 := rfl

theorem loadFont_frame (s : State) : loadFont s = { s with mem := (loadFont s).mem } := placeBytes_frame _ _ s

theorem loadFont_peek_font (s : State) (k : Nat) (hk : k < fontBytes.length) :
    (loadFont s).peek (0x50 + k) = fontBytes[k] :=
  (placeBytes_ok 0x50 fontBytes s).1 k hk

theorem loadFont_peek_outside (s : State) (a : Nat) (h : a < 0x50 ∨ 0x9F < a) : (loadFont s).peek a = s.peek a :=
  (placeBytes_ok 0x50 fontBytes s).2 a fun j hj => by simp only [fontBytes_length] at hj; omega

/-! ## Loading a program (spec/20_memory.md R72) -/

/-- Everything the load of a program can do. -/
theorem loadProgram_cases (bytes : List Byte) (s : State) :
    ((storeBytes 512 bytes s).2 = none ∧ loadProgram bytes s = (storeBytes 512 bytes s).1) ∨
    ∃ a, (storeBytes 512 bytes s).2 = some a ∧
      loadProgram bytes s = raise .memoryOutOfRange (some a) none s.pc (storeBytes 512 bytes s).1 := by
  unfold loadProgram
  rcases storeBytes 512 bytes s with ⟨t, _ | a⟩
  · exact .inl ⟨rfl, rfl⟩
  · exact .inr ⟨a, rfl, rfl⟩

/-- Every address of a program that fits is one the guard allows. -/
theorem inRange_of_fits {n k : Nat} (hn : n ≤ 3584) (hk : k < n) : inRange (512 + k) = true :=
  (inRange_iff _).2 ⟨by omega, by omega⟩

theorem loadProgram_fits (bytes : List Byte) (s : State) (hfit : bytes.length ≤ 3584) :
    loadProgram bytes s = (storeBytes 512 bytes s).1 := by
  obtain ⟨hdone, _⟩ := storeBytes_ok 512 bytes s fun _ => inRange_of_fits hfit
  rcases loadProgram_cases bytes s with ⟨_, e⟩ | ⟨a, hrefused, _⟩
  · exact e
  · rw [hdone] at hrefused; cases hrefused

theorem loadProgram_frame (bytes : List Byte) (s : State) (hfit : bytes.length ≤ 3584) :
    loadProgram bytes s = { s with mem := (loadProgram bytes s).mem } := by
  rw [loadProgram_fits bytes s hfit]; exact storeBytes_frame 512 bytes s

theorem loadProgram_peek_program (bytes : List Byte) (s : State) (hfit : bytes.length ≤ 3584) (k : Nat)
    (hk : k < bytes.length) : (loadProgram bytes s).peek (512 + k) = bytes[k] := by
  rw [loadProgram_fits bytes s hfit]
  exact (storeBytes_ok 512 bytes s fun _ => inRange_of_fits hfit).2.1 k hk

theorem loadProgram_peek_outside (bytes : List Byte) (s : State) (hfit : bytes.length ≤ 3584) (a : Nat)
    (ha : ∀ k < bytes.length, a ≠ 512 + k) : (loadProgram bytes s).peek a = s.peek a := by
  rw [loadProgram_fits bytes s hfit]
  exact (storeBytes_ok 512 bytes s fun _ => inRange_of_fits hfit).2.2 a ha

/-! ## Boot (spec/70_reset_and_hazards.md R264) -/

/-- The starts of the timers leave memory as the load of the program left it. -/
theorem boot_peek (bytes : List Byte) (s : State) (a : Nat) :
    (boot bytes s).peek a = (loadProgram bytes (loadFont (hostReset s))).peek a := rfl

theorem boot_frame (bytes : List Byte) (s : State) (hfit : bytes.length ≤ 3584) :
    boot bytes s = { hostReset s with dtRun := true, stRun := true, mem := (boot bytes s).mem } := by
  unfold boot
  rw [loadProgram_frame _ _ hfit, loadFont_frame]; rfl

theorem boot_peek_font (bytes : List Byte) (s : State) (hfit : bytes.length ≤ 3584) (k : Nat)
    (hk : k < fontBytes.length) : (boot bytes s).peek (0x50 + k) = fontBytes[k] := by
  have : k < 80 := hk
  rw [boot_peek, loadProgram_peek_outside _ _ hfit _ (fun j _ => by omega), loadFont_peek_font]

theorem boot_peek_program (bytes : List Byte) (s : State) (hfit : bytes.length ≤ 3584) (k : Nat)
    (hk : k < bytes.length) : (boot bytes s).peek (512 + k) = bytes[k] := by
  rw [boot_peek, loadProgram_peek_program _ _ hfit]

theorem boot_peek_elsewhere (bytes : List Byte) (s : State) (hfit : bytes.length ≤ 3584) (a : Nat)
    (hfont : a < 0x50 ∨ 0x9F < a) (hprog : ∀ k < bytes.length, a ≠ 512 + k) : (boot bytes s).peek a = 0 := by
  rw [boot_peek, loadProgram_peek_outside _ _ hfit _ hprog, loadFont_peek_outside _ _ hfont, hostReset_peek]

/-- From 512 on memory holds the program, and 0 past its end. -/
theorem boot_peek_getD (bytes : List Byte) (s : State) (hfit : bytes.length ≤ 3584) (k : Nat) :
    (boot bytes s).peek (512 + k) = bytes.getD k 0 := by
  by_cases hk : k < bytes.length
  · rw [boot_peek_program _ _ hfit k hk, List.getD_eq_getElem _ _ hk]
  · rw [boot_peek_elsewhere _ _ hfit _ (by omega) (fun j hj => by omega), List.getD_eq_default _ _ (by omega)]

/-- After boot the first fetch reads the word at 512. -/
theorem fetch_boot (bytes : List Byte) (s : State) (hfit : bytes.length ≤ 3584) :
    fetch (boot bytes s) = .ok (wordOfBytes (bytes.getD 0 0) (bytes.getD 1 0), { boot bytes s with pc := 514 }) := by
  have hpc : (boot bytes s).pc = 512 := by rw [boot_frame bytes s hfit]; rfl
  have hword : wordAtPc (boot bytes s) = wordOfBytes (bytes.getD 0 0) (bytes.getD 1 0) := by
    rw [← boot_peek_getD bytes s hfit 0, ← boot_peek_getD bytes s hfit 1, wordAtPc, hpc]; rfl
  rw [fetch_ok _ (by rw [hpc]; decide) (by rw [hpc]; decide), hword, hpc]; rfl

/-- Settles O7: the loads of font and program do not overlap, and nothing else touches memory. -/
theorem bootFetchesFirstProgramWord : Obligations.BootFetchesFirstProgramWord := by
  intro s bytes hfit
  have hframe := boot_frame bytes s hfit
  exact ⟨hframe, congrArg State.phase hframe, congrArg State.pc hframe, fetch_boot bytes s hfit,
    boot_peek_font bytes s hfit, boot_peek_program bytes s hfit, boot_peek_elsewhere bytes s hfit⟩

/-! ## The invariant at reset and after boot -/

theorem inv_reset : Inv State.reset := ⟨rfl, Nat.zero_le 16, by decide⟩

/-- The count of steps, which a reset keeps, is no part of the invariant. -/
theorem inv_hostReset (s : State) : Inv (hostReset s) := inv_reset

/-- The invariant asks of memory nothing but its canonical form. -/
theorem Inv.withMem {s : State} {m : Memory} (h : Inv s) (hm : m.wf = true) : Inv { s with mem := m } := by
  obtain ⟨_, hsp, hrec⟩ := h
  exact ⟨hm, hsp, hrec⟩

theorem inv_loadFont {s : State} (h : Inv s) : Inv (loadFont s) := by
  rw [loadFont_frame]
  exact h.withMem (placeBytes_wf 0x50 fontBytes s (by decide) h.1)

theorem inv_storeBytes {s : State} (a : Nat) (bytes : List Byte) (h : Inv s) : Inv (storeBytes a bytes s).1 := by
  rw [storeBytes_frame]
  exact h.withMem (storeBytes_wf a bytes s h.1)

/-- A load keeps the invariant, of an oversized program too. -/
theorem inv_loadProgram {s : State} (bytes : List Byte) (h : Inv s) : Inv (loadProgram bytes s) := by
  have hstored := inv_storeBytes 512 bytes h
  rcases loadProgram_cases bytes s with ⟨_, e⟩ | ⟨a, _, e⟩ <;> rw [e]
  · exact hstored
  · exact inv_raise _ _ _ _ hstored

/-- Settles O18: reset has the invariant, and each stage of the boot keeps it. -/
theorem invariantHoldsAtResetAndBoot : Obligations.InvariantHoldsAtResetAndBoot :=
  ⟨inv_reset, fun s bytes => inv_loadProgram bytes (inv_loadFont (inv_hostReset s))⟩

end Sys2Proof.Machine
end

section
/-! # SUPPORT. The family of spec/20_memory.md: loads (R71, R72), the guard and its two primitives (R62 to R64), fetch (R65,
R68), and which bytes a step can change (R62, R69, R75). -/

namespace Sys2Proof.Machine

/-! ## A program longer than memory (spec/20_memory.md R72, decision D30) -/

/-- More than 3584 bytes stored from 512 on are refused at address 4096, with the bytes before it stored (R70). -/
theorem storeBytes_overflows (bytes : List Byte) (s : State) (hlong : 3584 < bytes.length) :
    (storeBytes 512 bytes s).2 = some 4096 ∧
    ∀ (k : Nat) (hk : k < 3584), (storeBytes 512 bytes s).1.peek (512 + k) = bytes[k] := by
  obtain ⟨hstop, hstored, _⟩ :=
    storeBytes_refused 512 bytes s 3584 hlong (fun _ => inRange_of_fits le_rfl) (by decide)
  exact ⟨hstop, hstored⟩

/-- A program of more than 3584 bytes is refused at address 4096, whatever else it holds. -/
theorem loadProgram_overflows (bytes : List Byte) (s : State) (hlong : 3584 < bytes.length) :
    loadProgram bytes s = raise .memoryOutOfRange (some 4096) none s.pc (storeBytes 512 bytes s).1 := by
  obtain ⟨hstop, _⟩ := storeBytes_overflows bytes s hlong
  rcases loadProgram_cases bytes s with ⟨hdone, _⟩ | ⟨a, hrefused, e⟩
  · rw [hstop] at hdone; cases hdone
  · rw [hstop] at hrefused; cases hrefused; exact e

/-- Storing touches memory alone, so an oversized load leaves its bytes, its record and phase FAULT. -/
theorem loadProgram_stoppedWith (bytes : List Byte) (s : State) (hlong : 3584 < bytes.length) :
    stoppedWith ⟨.memoryOutOfRange, some 4096, none, s.pc⟩ { s with mem := (loadProgram bytes s).mem }
      (loadProgram bytes s) := by
  rw [loadProgram_overflows bytes s hlong, storeBytes_frame]; rfl

/-- The bytes below the end of memory are stored before the refusal. -/
theorem loadProgram_peek_stored (bytes : List Byte) (s : State) (hlong : 3584 < bytes.length) (k : Nat) (hk : k < 3584) :
    (loadProgram bytes s).peek (512 + k) = bytes[k] := by
  rw [loadProgram_overflows bytes s hlong]
  exact (storeBytes_overflows bytes s hlong).2 k hk

/-- A run of stores goes through the guard, so it changes no cell the guard refuses. -/
theorem storeBytes_peek_not_allowed (a : Nat) (bytes : List Byte) (s : State) {c : Nat} (hc : ¬ allowed c) :
    (storeBytes a bytes s).1.peek c = s.peek c := by
  by_contra hne
  obtain ⟨_, _, hr⟩ := storeBytes_changes a bytes s c hne
  exact hc ((allowed_iff_inRange c).2 hr)

/-- Loading goes through the guard, of an oversized program too. -/
theorem loadProgram_peek_not_allowed (bytes : List Byte) (s : State) {a : Nat} (ha : ¬ allowed a) :
    (loadProgram bytes s).peek a = s.peek a := by
  have hstored := storeBytes_peek_not_allowed 512 bytes s ha
  rcases loadProgram_cases bytes s with ⟨_, e⟩ | ⟨_, _, e⟩ <;> rw [e] <;> exact hstored

/-- Settles O8: a program that fits is one allowed run of stores, a longer one a run refused at its byte 3584. -/
theorem loadProgramStoresOrStops : Obligations.LoadProgramStoresOrStops := fun s bytes =>
  ⟨fun hfit => ⟨loadProgram_frame bytes s hfit, loadProgram_peek_program bytes s hfit, loadProgram_peek_outside bytes s hfit⟩,
    fun hlong => ⟨loadProgram_stoppedWith bytes s hlong, fun k _ => loadProgram_peek_stored bytes s hlong k,
      fun _ => loadProgram_peek_not_allowed bytes s⟩⟩

/-- Settles O9: the font's 80 bytes are placed past the guard, at 0x50 to 0x9F. -/
theorem loadFontWritesReservedTable : Obligations.LoadFontWritesReservedTable := fun s =>
  ⟨loadFont_frame s, fontBytes_length, loadFont_peek_font s, loadFont_peek_outside s⟩

/-! ## The bytes an instruction and a step can change (spec/20_memory.md R62, R69, R75) -/

/-- A cell depends on memory alone. -/
theorem peek_congr {s t : State} (h : t.mem = s.mem) (a : Nat) : t.peek a = s.peek a :=
  congrArg (Memory.read · a) h

/-- Settles O21: what `Fx33` and `Fx55` leave in memory is their run of three or x + 1 stores; no other instruction
touches it. -/
theorem onlyBlockStoresWriteMemory : Obligations.OnlyBlockStoresWriteMemory := by
  intro i s t a h hne
  rcases exec_mem i s t h with e | ⟨x, rfl, e⟩ | ⟨x, rfl, e⟩ <;> rw [peek_congr e] at hne
  · exact absurd rfl hne
  · obtain ⟨hlo, hhi, _⟩ := storeBytes_changes _ _ _ _ hne
    exact .inl ⟨x, rfl, hlo, hhi⟩
  · obtain ⟨hlo, hhi, _⟩ := storeBytes_changes _ _ _ _ hne
    rw [regBytes_length] at hhi
    exact .inr ⟨x, rfl, hlo, hhi⟩

/-- No instruction lifts the guard. -/
theorem exec_peek_not_allowed {i : Instr} {s t : State} (h : exec i s = .next t) {a : Nat} (ha : ¬ allowed a) :
    t.peek a = s.peek a := by
  rcases exec_mem i s t h with e | ⟨_, _, e⟩ | ⟨_, _, e⟩ <;> rw [peek_congr e]
  · exact storeBytes_peek_not_allowed _ _ s ha
  · exact storeBytes_peek_not_allowed _ _ s ha

/-- The core step writes memory through an instruction only. -/
theorem coreStep_peek_not_allowed {s t : State} (h : coreStep s = .next t) {a : Nat} (ha : ¬ allowed a) :
    t.peek a = s.peek a := by
  rcases coreStep_cases s with ⟨_, e⟩ | ⟨x, _, e⟩ | ⟨_, _, _, _, e⟩ | ⟨_, _, _, _, e⟩ | ⟨i, _, _, _, e⟩
  · cases e.symm.trans h; rfl
  · cases e.symm.trans h; rw [pollKey_frame]; rfl
  · cases e.symm.trans h; rfl
  · cases e.symm.trans h; rfl
  · exact (exec_peek_not_allowed (e.symm.trans h) ha :)

/-- Settles O20: the core step keeps every byte the guard refuses, and time touches no memory. -/
theorem reservedMemoryIsNeverWritten : Obligations.ReservedMemoryIsNeverWritten := by
  intro s u h a ha
  obtain ⟨t, ht, rfl⟩ := (step_next_iff s u).1 h
  calc (elapse t).peek a = t.peek a := peek_congr (elapse_mem t) a
    _ = s.peek a := coreStep_peek_not_allowed ht ha

/-! ## The guard and fetch (spec/20_memory.md R62 to R65, R68) -/

/-- Settles O10: by what a guarded write can do, and a read after a write. -/
theorem guardedAccessReadsAndWritesOneCell : Obligations.GuardedAccessReadsAndWritesOneCell := by
  intro s a v
  rw [allowed_iff_inRange]
  rcases memWrite_cases a v s with ⟨hr, hw⟩ | ⟨hr, hw⟩
  · exact ⟨fun _ => ⟨(memRead_eq_none_iff a s).2 hr, hw⟩, fun hin => by simp [hr] at hin⟩
  · refine ⟨fun hout => absurd hr hout, fun _ => ⟨memRead_of_inRange s hr, _, hw, rfl, ?_, fun b hb => ?_⟩⟩
    · exact (Memory.read_write s.mem a a v).trans (if_pos rfl)
    · exact (Memory.read_write s.mem a b v).trans (if_neg hb)

/-- Settles O11: from a fetchable pc, pc + 2 does not wrap; the refusals are those of the two reads. -/
theorem fetchIsBigEndianAndGuarded : Obligations.FetchIsBigEndianAndGuarded := by
  intro s
  refine ⟨fun hlo hhi => ⟨_, fetch_ok s hlo hhi, rfl, ?_, wordOfBytes_toNat _ _⟩, fetch_refused_first s,
    fetch_refused_second s⟩
  calc (s.pc + 2).toNat = (s.pc.toNat + 2) % 65536 := BitVec.toNat_add s.pc 2
    _ = s.pc.toNat + 2 := by omega

end Sys2Proof.Machine
end

section
/-! # SUPPORT. The family of spec/30_encoding.md: what a word is read as (R96, R100), decode and encode as inverses (R92, R98),
and the rows of the opcode table. -/

namespace Sys2Proof

/-! ## A word whose compared fields are known -/

theorem wordA_of_head {w : Word} {h : Nibble} (hd : fieldHead w = h) : wordA h (fieldNNN w) = w := hd ▸ wordA_fields w

theorem wordXK_of_head {w : Word} {h : Nibble} (hd : fieldHead w = h) : wordXK h (fieldX w) (fieldKK w) = w :=
  hd ▸ wordXK_fields w

theorem wordXK_of_fields {w : Word} {h : Nibble} {kk : Byte} (hd : fieldHead w = h) (hk : fieldKK w = kk) :
    wordXK h (fieldX w) kk = w := hk ▸ wordXK_of_head hd

theorem wordXY_of_head {w : Word} {h : Nibble} (hd : fieldHead w = h) :
    wordXY h (fieldX w) (fieldY w) (fieldN w) = w := hd ▸ wordXY_fields w

theorem wordXY_of_fields {w : Word} {h n : Nibble} (hd : fieldHead w = h) (hn : fieldN w = n) :
    wordXY h (fieldX w) (fieldY w) n = w := hn ▸ wordXY_of_head hd

/-! ## The fields a mask of the opcode table compares (R98) -/

@[simp] theorem fieldHead_and_F000 (w : Word) : fieldHead (w &&& 0xF000#16) = fieldHead w := by
  apply BitVec.eq_of_toNat_eq; rw [fieldHead_toNat, fieldHead_toNat, and_F000_toNat]; omega

@[simp] theorem fieldHead_and_F00F (w : Word) : fieldHead (w &&& 0xF00F#16) = fieldHead w := by
  apply BitVec.eq_of_toNat_eq; rw [fieldHead_toNat, fieldHead_toNat, and_F00F_toNat]; omega

@[simp] theorem fieldN_and_F00F (w : Word) : fieldN (w &&& 0xF00F#16) = fieldN w := by
  apply BitVec.eq_of_toNat_eq; rw [fieldN_toNat, fieldN_toNat, and_F00F_toNat]; omega

@[simp] theorem fieldHead_and_F0FF (w : Word) : fieldHead (w &&& 0xF0FF#16) = fieldHead w := by
  apply BitVec.eq_of_toNat_eq; rw [fieldHead_toNat, fieldHead_toNat, and_F0FF_toNat]; omega

@[simp] theorem fieldKK_and_F0FF (w : Word) : fieldKK (w &&& 0xF0FF#16) = fieldKK w := by
  apply BitVec.eq_of_toNat_eq; rw [fieldKK_toNat, fieldKK_toNat, and_F0FF_toNat]; omega

/-- Under head 0, ZERO_HEAD_MASK compares the low byte and lets field x through (R99, decision D10). -/
theorem and_F0FF_eq_iff_of_head_zero {w : Word} (hd : fieldHead w = 0) (kk : Byte) :
    w &&& 0xF0FF#16 = wordXK 0 0 kk ↔ fieldKK w = kk := by
  refine ⟨fun h => by rw [← fieldKK_and_F0FF, h, fieldKK_wordXK], fun hk => ?_⟩
  have hhead : w.toNat / 4096 = 0 := by rw [← fieldHead_toNat, hd]; rfl
  apply BitVec.eq_of_toNat_eq
  rw [and_F0FF_toNat, wordXK_toNat, ← hk, fieldKK_toNat, hhead]; simp

/-- Head 0 dispatches on the low byte, as heads E and F do. -/
theorem decodeHead0_eq {w : Word} (hd : fieldHead w = 0) : decodeHead0 Machine.params.zeroHeadMask w =
    if fieldKK w = 0xE0 then .instr (.cls (fieldX w))
    else if fieldKK w = 0xEE then .instr (.ret (fieldX w)) else .invalid w := by
  simp only [← and_F0FF_eq_iff_of_head_zero hd]; rfl

/-! ## Decode after encode -/

/-- The decoder reads the head, then the tail or the low byte where the format fixes one, and each operand is a field. -/
theorem decode_encode (i : Instr) : decode (encode i) = .instr i := by
  cases i with
  | cls x | ret x => simp [encode, decode, decodeWith, decodeHead0_eq]
  | jp nnn | call nnn | ldI nnn | jpV0 nnn | seImm x kk | sneImm x kk | ldImm x kk | addImm x kk | rnd x kk | drw x y n
  | seReg x y | sneReg x y => simp [encode, decode, decodeWith]
  | ldReg x y | orReg x y | andReg x y | xorReg x y | addReg x y | sub x y | shr x y | subn x y | shl x y =>
    simp [encode, decode, decodeWith, decodeHead8]
  | skp x | sknp x => simp [encode, decode, decodeWith, decodeHeadE]
  | ldVxDt x | ldVxK x | ldDtVx x | ldStVx x | addIVx x | ldFVx x | ldBVx x | ldMemVx x | ldVxMem x =>
    simp [encode, decode, decodeWith, decodeHeadF]

/-- Settles O2: the fields of a format are the operands it was built from. -/
theorem decodeOfEncodeIsIdentity : Obligations.DecodeOfEncodeIsIdentity := fun i _ => decode_encode i

/-! ## What a word is read as -/

/-- The table of R100: the words that select no instruction. -/
def InvalidWord (w : Word) : Prop :=
  (fieldHead w = 0x0 ∧ fieldKK w ≠ 0xE0 ∧ fieldKK w ≠ 0xEE) ∨
  (fieldHead w = 0x5 ∧ fieldN w ≠ 0) ∨
  (fieldHead w = 0x8 ∧ fieldN w ∈ [0x8#4, 0x9#4, 0xA#4, 0xB#4, 0xC#4, 0xD#4, 0xF#4]) ∨
  (fieldHead w = 0x9 ∧ fieldN w ≠ 0) ∨
  (fieldHead w = 0xE ∧ fieldKK w ≠ 0x9E ∧ fieldKK w ≠ 0xA1) ∨
  (fieldHead w = 0xF ∧ fieldKK w ∉ [0x07#8, 0x0A#8, 0x15#8, 0x18#8, 0x1E#8, 0x29#8, 0x33#8, 0x55#8, 0x65#8])

/-- What a word may be read as: an instruction whose word it is, or, where the table of R100 lists it, Invalid. -/
inductive ReadAs (w : Word) : Decoded → Prop
  | instr {i : Instr} (h : encode i = w) : ReadAs w (.instr i)
  | invalid (h : InvalidWord w) : ReadAs w (.invalid w)

theorem ReadAs.ite {w : Word} {i : Instr} {p : Prop} [Decidable p] (hi : p → encode i = w) (hinv : ¬ p → InvalidWord w) :
    ReadAs w (if p then .instr i else .invalid w) := by
  split
  · exact .instr (hi ‹_›)
  · exact .invalid (hinv ‹_›)

/-! One lemma per dispatch of R96; the last case of each is the row of R100 for that head. -/

theorem decodeHead0_readAs {w : Word} (hd : fieldHead w = 0x0) : ReadAs w (decodeHead0 Machine.params.zeroHeadMask w) := by
  rw [decodeHead0_eq hd]
  split
  next hk => exact .instr (wordXK_of_fields hd hk)
  next hcls => exact .ite (wordXK_of_fields hd) fun hret => .inl ⟨hd, hcls, hret⟩

theorem decodeHead8_readAs {w : Word} (hd : fieldHead w = 0x8) : ReadAs w (decodeHead8 w) := by
  unfold decodeHead8
  split
  case h_10 =>
    have hn : fieldN w ∈ [0x8#4, 0x9#4, 0xA#4, 0xB#4, 0xC#4, 0xD#4, 0xF#4] := by
      simp only [imp_false] at *; simp [← BitVec.toNat_inj]; omega
    exact .invalid (.inr (.inr (.inl ⟨hd, hn⟩)))
  all_goals exact .instr (wordXY_of_fields hd (BitVec.eq_of_toNat_eq ‹_›))

theorem decodeHeadE_readAs {w : Word} (hd : fieldHead w = 0xE) : ReadAs w (decodeHeadE w) := by
  unfold decodeHeadE
  split
  case h_3 =>
    have hk : fieldKK w ≠ 0x9E ∧ fieldKK w ≠ 0xA1 := by
      simp only [imp_false] at *; simp [← BitVec.toNat_inj]; omega
    exact .invalid (.inr (.inr (.inr (.inr (.inl ⟨hd, hk⟩)))))
  all_goals exact .instr (wordXK_of_fields hd (BitVec.eq_of_toNat_eq ‹_›))

theorem decodeHeadF_readAs {w : Word} (hd : fieldHead w = 0xF) : ReadAs w (decodeHeadF w) := by
  unfold decodeHeadF
  split
  case h_10 =>
    have hk : fieldKK w ∉ [0x07#8, 0x0A#8, 0x15#8, 0x18#8, 0x1E#8, 0x29#8, 0x33#8, 0x55#8, 0x65#8] := by
      simp only [imp_false] at *; simp [← BitVec.toNat_inj]; omega
    exact .invalid (.inr (.inr (.inr (.inr (.inr ⟨hd, hk⟩)))))
  all_goals exact .instr (wordXK_of_fields hd (BitVec.eq_of_toNat_eq ‹_›))

/-- Head by head, the decoder drops no bit of an instruction's word, and answers Invalid only where R100 does. -/
theorem decode_readAs (w : Word) : ReadAs w (decode w) := by
  unfold decode decodeWith
  split
  next hd => exact decodeHead0_readAs (BitVec.eq_of_toNat_eq hd)
  next hd => exact .instr (wordA_of_head (BitVec.eq_of_toNat_eq hd))
  next hd => exact .instr (wordA_of_head (BitVec.eq_of_toNat_eq hd))
  next hd => exact .instr (wordXK_of_head (BitVec.eq_of_toNat_eq hd))
  next hd => exact .instr (wordXK_of_head (BitVec.eq_of_toNat_eq hd))
  next hd =>
    have hd : fieldHead w = 0x5 := BitVec.eq_of_toNat_eq hd
    exact .ite (wordXY_of_fields hd) fun hn => .inr (.inl ⟨hd, hn⟩)
  next hd => exact .instr (wordXK_of_head (BitVec.eq_of_toNat_eq hd))
  next hd => exact .instr (wordXK_of_head (BitVec.eq_of_toNat_eq hd))
  next hd => exact decodeHead8_readAs (BitVec.eq_of_toNat_eq hd)
  next hd =>
    have hd : fieldHead w = 0x9 := BitVec.eq_of_toNat_eq hd
    exact .ite (wordXY_of_fields hd) fun hn => .inr (.inr (.inr (.inl ⟨hd, hn⟩)))
  next hd => exact .instr (wordA_of_head (BitVec.eq_of_toNat_eq hd))
  next hd => exact .instr (wordA_of_head (BitVec.eq_of_toNat_eq hd))
  next hd => exact .instr (wordXK_of_head (BitVec.eq_of_toNat_eq hd))
  next hd => exact .instr (wordXY_of_head (BitVec.eq_of_toNat_eq hd))
  next hd => exact decodeHeadE_readAs (BitVec.eq_of_toNat_eq hd)
  next hd => exact decodeHeadF_readAs (BitVec.eq_of_toNat_eq hd)
  next => simp only [imp_false] at *; omega

theorem encode_of_decode {w : Word} {i : Instr} (h : decode w = .instr i) : encode i = w := by
  have hread := decode_readAs w
  rw [h] at hread
  cases hread with | instr e => exact e

/-- Under the spec's mask a term's fields are bounded by their types alone (log entry 19). -/
theorem wellFormed_eq_true (i : Instr) : wellFormed i = true := by
  cases i with
  | cls x | ret x => exact beq_iff_eq.2 (BitVec.zero_and (x := x))
  | _ => rfl

/-- Settles O3: whatever the decoder reads is the word it was given. -/
theorem encodeOfDecodeIsIdentity : Obligations.EncodeOfDecodeIsIdentity := fun _ i h =>
  ⟨encode_of_decode h, wellFormed_eq_true i⟩

/-! ## Invalid words (R100) -/

/-- No row of R100 lists the word of an instruction. -/
theorem not_invalidWord_encode (i : Instr) : ¬ InvalidWord (encode i) := by
  cases i <;> simp [InvalidWord, encode]

theorem decode_of_invalidWord {w : Word} (hw : InvalidWord w) : decode w = .invalid w := by
  have hread := decode_readAs w
  generalize decode w = d at hread
  cases hread with
  | invalid _ => rfl
  | instr e => exact absurd (e ▸ hw) (not_invalidWord_encode _)

/-- Settles O5: an Invalid answer is read off the table, and a listed word encodes no instruction. -/
theorem invalidWordsAreThoseOfTheTable : Obligations.InvalidWordsAreThoseOfTheTable := by
  refine fun w => ⟨fun h => ?_, decode_of_invalidWord⟩
  have hread := decode_readAs w
  rw [h] at hread
  cases hread with | invalid hw => exact hw

/-! ## The rows of the opcode table (R98) -/

/-! The word of a selected row: the fields its mask compares are the pattern's, the others are the word's own. -/

theorem wordA_of_and {w p : Word} (h : w &&& 0xF000#16 = p) : wordA (fieldHead p) (fieldNNN w) = w :=
  wordA_of_head (by rw [← h, fieldHead_and_F000])

theorem wordXK_of_and {w p : Word} (h : w &&& 0xF000#16 = p) : wordXK (fieldHead p) (fieldX w) (fieldKK w) = w :=
  wordXK_of_head (by rw [← h, fieldHead_and_F000])

theorem wordXYN_of_and {w p : Word} (h : w &&& 0xF000#16 = p) :
    wordXY (fieldHead p) (fieldX w) (fieldY w) (fieldN w) = w :=
  wordXY_of_head (by rw [← h, fieldHead_and_F000])

theorem wordX_of_and {w p : Word} (h : w &&& 0xF0FF#16 = p) : wordXK (fieldHead p) (fieldX w) (fieldKK p) = w :=
  wordXK_of_fields (by rw [← h, fieldHead_and_F0FF]) (by rw [← h, fieldKK_and_F0FF])

theorem wordXY_of_and {w p : Word} (h : w &&& 0xF00F#16 = p) :
    wordXY (fieldHead p) (fieldX w) (fieldY w) (fieldN p) = w :=
  wordXY_of_fields (by rw [← h, fieldHead_and_F00F]) (by rw [← h, fieldN_and_F00F])

/-- A word that selects a row is the word of an instruction of that row: the row's pattern is what its format fixes. -/
theorem encode_of_selects {w : Word} :
    ∀ r ∈ opcodeRows, w &&& r.mask = r.pattern → ∃ i, encode i = w ∧ mnemonic i = r.name := by
  simp only [opcodeRows, opcodeRowsLow, opcodeRowsHigh, List.cons_append, List.nil_append, List.forall_mem_cons]
  exact ⟨
    fun h => ⟨.cls (fieldX w), (wordX_of_and h :), rfl⟩,
    fun h => ⟨.ret (fieldX w), (wordX_of_and h :), rfl⟩,
    fun h => ⟨.jp (fieldNNN w), (wordA_of_and h :), rfl⟩,
    fun h => ⟨.call (fieldNNN w), (wordA_of_and h :), rfl⟩,
    fun h => ⟨.seImm (fieldX w) (fieldKK w), (wordXK_of_and h :), rfl⟩,
    fun h => ⟨.sneImm (fieldX w) (fieldKK w), (wordXK_of_and h :), rfl⟩,
    fun h => ⟨.seReg (fieldX w) (fieldY w), (wordXY_of_and h :), rfl⟩,
    fun h => ⟨.ldImm (fieldX w) (fieldKK w), (wordXK_of_and h :), rfl⟩,
    fun h => ⟨.addImm (fieldX w) (fieldKK w), (wordXK_of_and h :), rfl⟩,
    fun h => ⟨.ldReg (fieldX w) (fieldY w), (wordXY_of_and h :), rfl⟩,
    fun h => ⟨.orReg (fieldX w) (fieldY w), (wordXY_of_and h :), rfl⟩,
    fun h => ⟨.andReg (fieldX w) (fieldY w), (wordXY_of_and h :), rfl⟩,
    fun h => ⟨.xorReg (fieldX w) (fieldY w), (wordXY_of_and h :), rfl⟩,
    fun h => ⟨.addReg (fieldX w) (fieldY w), (wordXY_of_and h :), rfl⟩,
    fun h => ⟨.sub (fieldX w) (fieldY w), (wordXY_of_and h :), rfl⟩,
    fun h => ⟨.shr (fieldX w) (fieldY w), (wordXY_of_and h :), rfl⟩,
    fun h => ⟨.subn (fieldX w) (fieldY w), (wordXY_of_and h :), rfl⟩,
    fun h => ⟨.shl (fieldX w) (fieldY w), (wordXY_of_and h :), rfl⟩,
    fun h => ⟨.sneReg (fieldX w) (fieldY w), (wordXY_of_and h :), rfl⟩,
    fun h => ⟨.ldI (fieldNNN w), (wordA_of_and h :), rfl⟩,
    fun h => ⟨.jpV0 (fieldNNN w), (wordA_of_and h :), rfl⟩,
    fun h => ⟨.rnd (fieldX w) (fieldKK w), (wordXK_of_and h :), rfl⟩,
    fun h => ⟨.drw (fieldX w) (fieldY w) (fieldN w), (wordXYN_of_and h :), rfl⟩,
    fun h => ⟨.skp (fieldX w), (wordX_of_and h :), rfl⟩,
    fun h => ⟨.sknp (fieldX w), (wordX_of_and h :), rfl⟩,
    fun h => ⟨.ldVxDt (fieldX w), (wordX_of_and h :), rfl⟩,
    fun h => ⟨.ldVxK (fieldX w), (wordX_of_and h :), rfl⟩,
    fun h => ⟨.ldDtVx (fieldX w), (wordX_of_and h :), rfl⟩,
    fun h => ⟨.ldStVx (fieldX w), (wordX_of_and h :), rfl⟩,
    fun h => ⟨.addIVx (fieldX w), (wordX_of_and h :), rfl⟩,
    fun h => ⟨.ldFVx (fieldX w), (wordX_of_and h :), rfl⟩,
    fun h => ⟨.ldBVx (fieldX w), (wordX_of_and h :), rfl⟩,
    fun h => ⟨.ldMemVx (fieldX w), (wordX_of_and h :), rfl⟩,
    fun h => ⟨.ldVxMem (fieldX w), (wordX_of_and h :), rfl⟩,
    fun _ h => absurd h List.not_mem_nil⟩

/-- The word of an instruction selects the row that bears its name. -/
theorem encode_selects_row : ∀ i : Instr, Laws.RowOf.Statement i
  | .cls x => Laws.RowOf.cls x  | .ret x => Laws.RowOf.ret x  | .jp nnn => Laws.RowOf.jp nnn
  | .call nnn => Laws.RowOf.call nnn  | .seImm x kk => Laws.RowOf.seImm x kk  | .sneImm x kk => Laws.RowOf.sneImm x kk
  | .seReg x y => Laws.RowOf.seReg x y  | .ldImm x kk => Laws.RowOf.ldImm x kk  | .addImm x kk => Laws.RowOf.addImm x kk
  | .ldReg x y => Laws.RowOf.ldReg x y  | .orReg x y => Laws.RowOf.orReg x y  | .andReg x y => Laws.RowOf.andReg x y
  | .xorReg x y => Laws.RowOf.xorReg x y  | .addReg x y => Laws.RowOf.addReg x y  | .sub x y => Laws.RowOf.sub x y
  | .shr x y => Laws.RowOf.shr x y  | .subn x y => Laws.RowOf.subn x y  | .shl x y => Laws.RowOf.shl x y
  | .sneReg x y => Laws.RowOf.sneReg x y  | .ldI nnn => Laws.RowOf.ldI nnn  | .jpV0 nnn => Laws.RowOf.jpV0 nnn
  | .rnd x kk => Laws.RowOf.rnd x kk  | .drw x y n => Laws.RowOf.drw x y n  | .skp x => Laws.RowOf.skp x
  | .sknp x => Laws.RowOf.sknp x  | .ldVxDt x => Laws.RowOf.ldVxDt x  | .ldVxK x => Laws.RowOf.ldVxK x
  | .ldDtVx x => Laws.RowOf.ldDtVx x  | .ldStVx x => Laws.RowOf.ldStVx x  | .addIVx x => Laws.RowOf.addIVx x
  | .ldFVx x => Laws.RowOf.ldFVx x  | .ldBVx x => Laws.RowOf.ldBVx x  | .ldMemVx x => Laws.RowOf.ldMemVx x
  | .ldVxMem x => Laws.RowOf.ldVxMem x

/-- Settles O4: a selected row names the instruction the word encodes, and the word of a decoded instruction selects a
row. -/
theorem decodeFollowsOpcodeRows : Obligations.DecodeFollowsOpcodeRows := by
  intro w
  constructor
  · intro r hr hsel
    obtain ⟨i, rfl, hname⟩ := encode_of_selects r hr hsel
    exact ⟨i, decode_encode i, hname⟩
  · intro hnone
    cases hd : decode w with
    | invalid w' => rw [decode_invalid_word hd]
    | instr i =>
      obtain ⟨r, hr, _, hsel⟩ := encode_selects_row i
      rw [encode_of_decode hd] at hsel
      exact absurd hsel (hnone r hr)

/-- Settles O1, by running the decoder on the fifteen words. -/
theorem decodeReadsSpecWords : Obligations.DecodeReadsSpecWords := by
  unfold Obligations.DecodeReadsSpecWords
  decide

end Sys2Proof
end

section
/-! # SUPPORT. The family of spec/40_flow.md: return, jumps, call and the conditional skips (R120 to R128). -/

namespace Sys2Proof.Machine

/-! ## Operands, the stack's slots and the fault of the execute stage -/

@[simp] theorem addrOperand_toNat (nnn : Addr12) : (addrOperand nnn).toNat = nnn.toNat :=
  BitVec.toNat_setWidth_of_le (by decide)

@[simp] theorem zext16_toNat (b : Byte) : (zext16 b).toNat = b.toNat :=
  BitVec.toNat_setWidth_of_le (by decide)

/-- A pushed entry takes the slot SP pointed at (spec/10_state.md R28). -/
theorem stk_sp_of_pushed {s t : State} {a : Word} (h : t.stack = a :: s.stack) : t.stk s.sp = some a := by
  simp [State.stk, State.sp, h]

/-- A push leaves the slots below SP as they were (spec/10_state.md R28). -/
theorem stk_below_of_pushed {s t : State} {a : Word} (h : t.stack = a :: s.stack) {k : Nat} (hk : k < s.sp) :
    t.stk k = s.stk k := by
  have hlen : k < s.stack.reverse.length := by rw [List.length_reverse]; exact hk
  simp only [State.stk, h, List.reverse_cons]
  exact List.getElem?_append_left hlen

/-- What `raiseAt` leaves is the machine stopped with the record of R226. -/
theorem raiseAt_stoppedWith (c : FaultCause) (a : Option Nat) (w : Word) (s : State) :
    stoppedWith (recordAt c (a.map (BitVec.ofNat 17)) w s) s (raiseAt c a w s) := rfl

/-! ## Return and call -/

/-- Settles O30: what RET does in each of the two cases of a pop. -/
theorem retPopsOrUnderflows : Obligations.RetPopsOrUnderflows := by
  intro x s
  refine ⟨decode_encode (.ret x), ?_⟩
  rcases exec_ret_cases x s with ⟨hempty, hexec⟩ | ⟨b, tail, hstack, hexec⟩
  · exact ⟨fun a rest h => by simp [hempty] at h, fun _ => ⟨_, hexec, raiseAt_stoppedWith ..⟩⟩
  · refine ⟨fun a rest h => ?_, fun h => by simp [hstack] at h⟩
    obtain ⟨rfl, rfl⟩ := List.cons.inj (hstack.symm.trans h)
    exact hexec

/-- Settles O32: what CALL does in each of the two cases of a push. -/
theorem callPushesOrOverflows : Obligations.CallPushesOrOverflows := by
  intro nnn s
  refine ⟨decode_encode (.call nnn), ?_⟩
  rcases exec_call_cases nnn s with ⟨hfull, hexec⟩ | ⟨hroom, hexec⟩
  · exact ⟨fun hsp => absurd hsp (Nat.not_lt.2 hfull), fun _ => ⟨_, hexec, raiseAt_stoppedWith ..⟩⟩
  · exact ⟨fun _ => ⟨_, hexec, addrOperand_toNat nnn, rfl, stk_sp_of_pushed rfl, fun _ hk => stk_below_of_pushed rfl hk, rfl⟩,
      fun hsp => absurd hroom (Nat.not_lt.2 hsp)⟩

/-! ## Jumps -/

/-- Settles O31: the jump is made whatever its target is; the fetch after it refuses at pc or at pc + 1. -/
theorem jpSetsPc : Obligations.JpSetsPc := by
  intro nnn s
  have hpc : (jumpTo (addrOperand nnn) s).pc.toNat = nnn.toNat := addrOperand_toNat nnn
  refine ⟨decode_encode (.jp nnn), _, rfl, hpc, rfl, fun hlow => ?_, fun hlast => ?_⟩
  · rw [← hpc]
    exact fetch_refused_first _ (.inl (hpc.trans_lt hlow))
  · exact fetch_refused_second _ (hpc.trans (by rw [hlast]; rfl))

/-- Settles O34: a 12-bit address and a byte sum to less than 2^16, so the 16-bit sum does not wrap. -/
theorem jpV0AddsV0 : Obligations.JpV0AddsV0 := by
  intro nnn s
  have hsum : (addrOperand nnn + zext16 (s.reg 0)).toNat = nnn.toNat + (s.reg 0).toNat := by
    have hn := nnn.isLt
    have hv := (s.reg 0).isLt
    rw [BitVec.toNat_add, addrOperand_toNat, zext16_toNat]
    omega
  exact ⟨decode_encode (.jpV0 nnn), _, rfl, hsum, rfl⟩

/-! ## Skips -/

/-- An instruction that is a skip on a test advances pc by 2 modulo 65536 exactly when the test holds, and changes nothing
else (spec/40_flow.md R120). -/
theorem exec_skip {i : Instr} {s : State} {c : Bool} {p : Prop} [Decidable p] (hexec : exec i s = .next (skipIf c s))
    (hc : c = true ↔ p) : ∃ t, exec i s = .next t ∧ onlyPc s t ∧
      t.pc.toNat = (if p then (s.pc.toNat + 2) % 65536 else s.pc.toNat) := by
  refine ⟨_, hexec, rfl, ?_⟩
  rw [skipIf_pc]
  by_cases hp : p
  · rw [if_pos (hc.2 hp), if_pos hp]
    exact BitVec.toNat_add s.pc 2
  · rw [if_neg (mt hc.1 hp), if_neg hp]

/-- Settles O35: both instructions are skips, on the two answers of one comparison. -/
theorem skipsOnByteComparison : Obligations.SkipsOnByteComparison := fun x kk _ =>
  ⟨decode_encode (.seImm x kk), decode_encode (.sneImm x kk), exec_skip rfl beq_iff_eq, exec_skip rfl bne_iff_ne⟩

/-- Settles O36: both instructions are skips, and the table of R100 lists every other tail of heads 5 and 9. -/
theorem skipsOnRegisterComparison : Obligations.SkipsOnRegisterComparison := by
  intro x y s
  refine ⟨decode_encode (.seReg x y), decode_encode (.sneReg x y), fun n hn => ⟨?_, ?_⟩,
    exec_skip rfl beq_iff_eq, exec_skip rfl bne_iff_ne⟩
  · have hrow : InvalidWord (wordXY 0x5 x y n) := .inr (.inl ⟨fieldHead_wordXY .., by rwa [fieldN_wordXY]⟩)
    exact decode_of_invalidWord hrow
  · have hrow : InvalidWord (wordXY 0x9 x y n) :=
      .inr (.inr (.inr (.inl ⟨fieldHead_wordXY .., by rwa [fieldN_wordXY]⟩)))
    exact decode_of_invalidWord hrow

end Sys2Proof.Machine
end

section
/-! # SUPPORT. The family of spec/41_alu.md: loads, arithmetic, logic, shifts and the random byte (R140 to R153). -/

namespace Sys2Proof.Machine

/-! ## What a register write and a flagged write leave alone -/

theorem setReg_changes_only (s : State) (x : Reg) (b : Byte) : regsBut x s (s.setReg x b) ∧ onlyRegs s (s.setReg x b) :=
  ⟨fun r hr => State.reg_setReg_ne s x r b hr, rfl⟩

theorem writeFlagged_changes_only (x : Reg) (b : Byte) (f : Bool) (s : State) :
    regsButFlag x s (writeFlagged .flagFirst x b f s) ∧ onlyRegs s (writeFlagged .flagFirst x b f s) :=
  ⟨fun r hx hf => writeFlagged_other x r b f s hx hf, rfl⟩

/-! ## Results and flags as numbers (spec/41_alu.md R140) -/

theorem flagByte_decide (p : Prop) [Decidable p] : flagByte (decide p) = if p then 1 else 0 := by
  simp only [flagByte, decide_eq_true_eq]

theorem flagByte_toNat (f : Bool) : (flagByte f).toNat = f.toNat := by cases f <;> rfl

/-- Under SUB_RESULT = wrapped (decision D4) a difference is taken modulo 256. -/
theorem difference_wrapped_toNat (a b : Byte) : (difference .wrapped a b).toNat = (a.toNat + 256 - b.toNat) % 256 := by
  have hb := b.isLt
  show (a - b).toNat = _
  rw [BitVec.toNat_sub]
  omega

theorem ushiftRight_one_toNat (a : Byte) : (a >>> 1).toNat = a.toNat / 2 := by
  rw [BitVec.toNat_ushiftRight, Nat.shiftRight_eq_div_pow, Nat.pow_one]

theorem shiftLeft_one_toNat (a : Byte) : (a <<< 1).toNat = a.toNat * 2 % 256 := by
  rw [BitVec.toNat_shiftLeft, Nat.shiftLeft_eq, Nat.pow_one]

theorem shiftedOutRight_toNat (a : Byte) : (shiftedOutRight a).toNat = a.toNat % 2 := by
  have hbit : (shiftedOutRight a).toNat = a.toNat / 2 ^ 0 % 2 := Nat.toNat_testBit _ _
  rw [hbit, Nat.pow_zero, Nat.div_one]

theorem shiftedOutLeft_toNat (a : Byte) : (shiftedOutLeft a).toNat = a.toNat / 128 := by
  have ha := a.isLt
  have hbit : (shiftedOutLeft a).toNat = a.toNat / 2 ^ 7 % 2 := Nat.toNat_testBit _ _
  omega

/-! ## Instructions that write one register -/

/-- Settles O37: both loads are one register write. -/
theorem loadsCopyByteOrRegister : Obligations.LoadsCopyByteOrRegister := fun x y kk _ =>
  ⟨decode_encode (.ldImm x kk), decode_encode (.ldReg x y),
    ⟨_, rfl, State.reg_setReg_same .., setReg_changes_only ..⟩,
    ⟨_, rfl, State.reg_setReg_same .., setReg_changes_only ..⟩⟩

/-- Settles O38: one register write of the 8-bit sum. -/
theorem addImmWrapsWithoutFlag : Obligations.AddImmWrapsWithoutFlag := by
  intro x kk s
  refine ⟨decode_encode (.addImm x kk), s.setReg x (s.reg x + kk), rfl, ?_, setReg_changes_only ..⟩
  rw [State.reg_setReg_same]
  exact BitVec.toNat_add ..

/-- Settles O39: under LOGIC_RESETS_VF = false (decision D5) each of the three is one register write. -/
theorem logicIsBitwiseWithoutFlag : Obligations.LogicIsBitwiseWithoutFlag := by
  intro x y s
  refine ⟨decode_encode (.orReg x y), decode_encode (.andReg x y), decode_encode (.xorReg x y),
    ⟨s.setReg x (s.reg x ||| s.reg y), rfl, fun b => ?_, setReg_changes_only ..⟩,
    ⟨s.setReg x (s.reg x &&& s.reg y), rfl, fun b => ?_, setReg_changes_only ..⟩,
    ⟨s.setReg x (s.reg x ^^^ s.reg y), rfl, fun b => ?_, setReg_changes_only ..⟩⟩ <;>
    rw [State.reg_setReg_same]
  · exact BitVec.getLsbD_or
  · exact BitVec.getLsbD_and
  · exact BitVec.getLsbD_xor

/-- Settles O45: one register write of the masked byte; a bit the mask clears is 0 for every random byte. -/
theorem rndMasksTheRandomByte : Obligations.RndMasksTheRandomByte := by
  intro x kk s
  refine ⟨decode_encode (.rnd x kk), s.setReg x (Config.randByte s.instant &&& kk), rfl, State.reg_setReg_same ..,
    fun b hmask => ?_, setReg_changes_only ..⟩
  rw [State.reg_setReg_same, BitVec.getLsbD_and, hmask, Bool.and_false]

/-! ## Instructions that write a result and the flag (spec/41_alu.md R153) -/

/-- An instruction that is a flagged write leaves the result in V[x] whatever x is, the flag in VF unless x = 15, and
changes nothing else (decision D3). -/
theorem exec_flagged {i : Instr} {x : Reg} {b : Byte} {f : Bool} {s : State} {n : Nat}
    (hexec : exec i s = .next (writeFlagged .flagFirst x b f s)) (hn : b.toNat = n) :
    ∃ t, exec i s = .next t ∧ (t.reg x).toNat = n ∧ (x ≠ 15 → t.reg 15 = flagByte f) ∧
      regsButFlag x s t ∧ onlyRegs s t :=
  ⟨_, hexec, (congrArg BitVec.toNat (writeFlagged_result ..)).trans hn, writeFlagged_flag x b f s,
    writeFlagged_changes_only ..⟩

/-- `exec_flagged` for a flag that is the answer of a comparison. -/
theorem exec_flagged_decide {i : Instr} {x : Reg} {b : Byte} {p : Prop} [Decidable p] {s : State} {n : Nat}
    (hexec : exec i s = .next (writeFlagged .flagFirst x b (decide p) s)) (hn : b.toNat = n) :
    ∃ t, exec i s = .next t ∧ (t.reg x).toNat = n ∧ (x ≠ 15 → t.reg 15 = if p then 1 else 0) ∧
      regsButFlag x s t ∧ onlyRegs s t := by
  rw [← flagByte_decide]
  exact exec_flagged hexec hn

/-- `exec_flagged` for a flag that is a bit of the operand, read as a number. -/
theorem exec_flagged_bit {i : Instr} {x : Reg} {b : Byte} {f : Bool} {s : State} {n m : Nat}
    (hexec : exec i s = .next (writeFlagged .flagFirst x b f s)) (hn : b.toNat = n) (hm : f.toNat = m) :
    ∃ t, exec i s = .next t ∧ (t.reg x).toNat = n ∧ (x ≠ 15 → (t.reg 15).toNat = m) ∧
      regsButFlag x s t ∧ onlyRegs s t := by
  obtain ⟨t, ht, hres, hflag, hframe⟩ := exec_flagged hexec hn
  exact ⟨t, ht, hres, fun hx => by rw [hflag hx, flagByte_toNat, hm], hframe⟩

/-- Settles O40: the flag compares the true sum with 255. -/
theorem addRegSetsCarry : Obligations.AddRegSetsCarry := fun x y _ =>
  ⟨decode_encode (.addReg x y), exec_flagged_decide rfl (BitVec.toNat_add ..)⟩

/-- Settles O41: the difference wraps, and the flag compares the operands. -/
theorem subSetsNoBorrow : Obligations.SubSetsNoBorrow := fun x y _ =>
  ⟨decode_encode (.sub x y), exec_flagged_decide rfl (difference_wrapped_toNat ..)⟩

/-- Settles O42: SUB with its operands exchanged. -/
theorem subnSetsNoBorrow : Obligations.SubnSetsNoBorrow := fun x y _ =>
  ⟨decode_encode (.subn x y), exec_flagged_decide rfl (difference_wrapped_toNat ..)⟩

/-- Settles O43: under SHIFT_SOURCE = vx (decision D2) the operand is V[x]. -/
theorem shrHalvesAndReportsBit : Obligations.ShrHalvesAndReportsBit := fun x y s =>
  ⟨decode_encode (.shr x y), exec_flagged_bit rfl (ushiftRight_one_toNat (s.reg x)) (shiftedOutRight_toNat (s.reg x))⟩

/-- Settles O44: under SHIFT_SOURCE = vx (decision D2) the operand is V[x]. -/
theorem shlDoublesAndReportsBit : Obligations.ShlDoublesAndReportsBit := fun x y s =>
  ⟨decode_encode (.shl x y), exec_flagged_bit rfl (shiftLeft_one_toNat (s.reg x)) (shiftedOutLeft_toNat (s.reg x))⟩

end Sys2Proof.Machine
end

section
/-! # SUPPORT. The family of spec/42_index_memory.md: the index register (R171 to R173) and the block transfers (R174 to
R176). -/

namespace Sys2Proof.Machine

/-! ## The index register -/

/-- Settles O46: the 12-bit field is written to I as it is. -/
theorem ldISetsIndex : Obligations.LdISetsIndex := fun nnn _ =>
  ⟨decode_encode (.ldI nnn), _, rfl, addrOperand_toNat nnn, rfl⟩

/-- Settles O47: under ADD_I_FLAG = false (decision D8) the 16-bit sum is the only write. -/
theorem addIWrapsWithoutFlag : Obligations.AddIWrapsWithoutFlag := by
  intro x s
  have hsum : (s.i + zext16 (s.reg x)).toNat = (s.i.toNat + (s.reg x).toNat) % 65536 := by
    rw [BitVec.toNat_add, zext16_toNat]
  exact ⟨decode_encode (.addIVx x), _, rfl, hsum, rfl⟩

/-- A digit's glyph lies in the font table, so its address does not wrap. -/
theorem glyphAddr_toNat {d : Byte} (hd : d.toNat ≤ 15) : (glyphAddr d).toNat = 0x50 + 5 * d.toNat := by
  show (0x50#16 + 5#16 * zext16 d).toNat = _
  rw [BitVec.toNat_add, BitVec.toNat_mul, zext16_toNat]
  simp only [BitVec.toNat_ofNat]
  omega

/-- Settles O48: the two branches of the new I. -/
theorem ldFPointsAtGlyph : Obligations.LdFPointsAtGlyph := fun x _ =>
  ⟨decode_encode (.ldFVx x), _, rfl, rfl, fun hd => (congrArg BitVec.toNat (if_pos hd)).trans (glyphAddr_toNat hd),
    fun hd => if_neg (Nat.not_le.2 hd)⟩

/-! ## Instructions that are a run of stores from I on (spec/20_memory.md R70) -/

theorem blockAllowed_inRange {s : State} {n : Nat} (h : blockAllowed s n) {j : Nat} (hj : j < n) :
    inRange (s.i.toNat + j) = true :=
  (allowed_iff_inRange _).1 (h j hj)

theorem firstRefused_iff (s : State) (n k : Nat) : firstRefused s n k ↔
    k < n ∧ (∀ j < k, inRange (s.i.toNat + j) = true) ∧ inRange (s.i.toNat + k) = false := by
  rw [firstRefused, not_allowed_iff]
  simp only [allowed_iff_inRange]

/-- Memory of `t` is that of `s` with the first `k` of the bytes `bs` stored from the I of `s` on. -/
def firstStored (k : Nat) (bs : List Byte) (s t : State) : Prop :=
  (∀ (j : Nat) (hj : j < bs.length), j < k → t.peek (s.i.toNat + j) = bs[j]) ∧
  ∀ a, (∀ j < k, a ≠ s.i.toNat + j) → t.peek a = s.peek a

section Stores

variable {i : Instr} {s : State} {bs : List Byte}
  (hexec : exec i s = .next (finishRun i (storeBytes s.i.toNat bs s)))
include hexec

/-- Where the guard allows every address, all the bytes are stored and memory alone changes. -/
theorem exec_stores_done (h : blockAllowed s bs.length) :
    ∃ t, exec i s = .next t ∧ onlyMem s t ∧ firstStored bs.length bs s t := by
  obtain ⟨hdone, hstored, hkept⟩ := storeBytes_ok s.i.toNat bs s fun _ => blockAllowed_inRange h
  rw [finishRun_done _ _ hdone] at hexec
  exact ⟨_, hexec, storeBytes_frame .., fun j hj _ => hstored j hj, hkept⟩

/-- At the first address the guard refuses the instruction stops, with the bytes before it stored. -/
theorem exec_stores_refused {k : Nat} (h : firstRefused s bs.length k) :
    ∃ t, exec i s = .next t ∧
      stoppedWith (recordAt .memoryOutOfRange (some (BitVec.ofNat 17 (s.i.toNat + k))) (encode i) s)
        { s with mem := t.mem } t ∧ firstStored k bs s t := by
  obtain ⟨hk, hbefore, hat⟩ := (firstRefused_iff ..).1 h
  obtain ⟨hstop, hstored, hkept⟩ := storeBytes_refused s.i.toNat bs s k hk hbefore hat
  rw [finishRun_refused _ _ _ hstop] at hexec
  refine ⟨_, hexec, ?_, fun j _ hj => hstored j hj, hkept⟩
  rw [storeBytes_frame]
  exact raiseAt_stoppedWith ..

end Stores

/-! ## LD B: the decimal digits (R174) -/

theorem bcdDigits_toNat (b : Byte) : (bcdDigits b).map BitVec.toNat = [b.toNat / 100, b.toNat / 10 % 10, b.toNat % 10] := by
  have hb := b.isLt
  simp only [bcdDigits, List.map_cons, List.map_nil, BitVec.toNat_ofNat, List.cons.injEq, and_true]
  omega

/-- A stored digit reads back as the number it stands for. -/
theorem firstStored.digit {k : Nat} {b : Byte} {s t : State} (h : firstStored k (bcdDigits b) s t) {j n : Nat}
    (hj : j < k) (hn : [b.toNat / 100, b.toNat / 10 % 10, b.toNat % 10][j]? = some n) :
    (t.peek (s.i.toNat + j)).toNat = n := by
  rw [← bcdDigits_toNat, List.getElem?_map, Option.map_eq_some_iff] at hn
  obtain ⟨c, hc, rfl⟩ := hn
  obtain ⟨hlt, rfl⟩ := List.getElem?_eq_some_iff.1 hc
  rw [h.1 j hlt hj]

/-- Settles O49: a run of three stores, of the digits. -/
theorem ldBStoresDigits : Obligations.LdBStoresDigits := by
  intro x s
  refine ⟨decode_encode (.ldBVx x), fun hblock => ?_, fun k hrefused => ?_⟩
  · obtain ⟨t, hexec, hframe, hstored⟩ := exec_stores_done (i := .ldBVx x) rfl hblock
    exact ⟨t, hexec, hframe, hstored.digit (j := 0) (by simp) rfl, hstored.digit (by simp) rfl,
      hstored.digit (by simp) rfl, hstored.2⟩
  · obtain ⟨t, hexec, hstop, hstored⟩ := exec_stores_refused (i := .ldBVx x) rfl hrefused
    exact ⟨t, hexec, hstop, fun hk => hstored.digit (j := 0) hk rfl, fun hk => hstored.digit hk rfl, hstored.2⟩

/-! ## LD [I]: the registers (R175) -/

/-- A stored register reads back. -/
theorem firstStored.register {k : Nat} {x : Reg} {s t : State} (h : firstStored k (regBytes x s) s t) {r : Reg}
    (hx : r.toNat ≤ x.toNat) (hr : r.toNat < k) : t.peek (s.i.toNat + r.toNat) = s.reg r := by
  rw [h.1 r.toNat (by rw [regBytes_length]; omega) hr, regBytes_getElem, BitVec.ofNat_toNat, BitVec.setWidth_eq]

/-- What `Fx55` does where the guard allows the block. -/
theorem exec_ldMemVx_done {x : Reg} {s : State} (h : blockAllowed s (x.toNat + 1)) :
    ∃ t, exec (.ldMemVx x) s = .next t ∧ onlyMem s t ∧ firstStored (x.toNat + 1) (regBytes x s) s t := by
  rw [← regBytes_length x s] at h ⊢
  exact exec_stores_done (exec_ldMemVx x s) h

/-- Settles O50: a run of x + 1 stores, of the registers. -/
theorem ldMemStoresRegisters : Obligations.LdMemStoresRegisters := by
  intro x s
  refine ⟨decode_encode (.ldMemVx x), fun hblock => ?_, fun k hrefused => ?_⟩
  · obtain ⟨t, hexec, hframe, hstored⟩ := exec_ldMemVx_done hblock
    exact ⟨t, hexec, hframe, fun r hr => hstored.register hr (Nat.lt_succ_of_le hr),
      fun a ha => hstored.2 a fun j hj => ha j (Nat.le_of_lt_succ hj)⟩
  · have ⟨hk, _⟩ := hrefused
    rw [← regBytes_length x s] at hrefused
    obtain ⟨t, hexec, hstop, hstored⟩ := exec_stores_refused (exec_ldMemVx x s) hrefused
    exact ⟨t, hexec, hstop, fun r hr => hstored.register (by omega) hr, hstored.2⟩

/-! ## LD Vx, [I]: the run of loads (R176) -/

/-- What `Fx65` does where the guard allows the block. -/
theorem exec_ldVxMem_done {x : Reg} {s : State} (h : blockAllowed s (x.toNat + 1)) :
    ∃ t, exec (.ldVxMem x) s = .next t ∧ onlyRegs s t ∧
      ∀ r : Reg, t.reg r = if r.toNat ≤ x.toNat then s.peek (s.i.toNat + r.toNat) else s.reg r := by
  have hx := x.isLt
  obtain ⟨hdone, hloaded⟩ := loadRegs_ok s.i.toNat 0 (x.toNat + 1) s (by omega)
    fun j _ hj => blockAllowed_inRange h (by omega)
  refine ⟨_, (exec_ldVxMem x s).trans (congrArg _ (finishRun_done _ _ hdone)), loadRegs_frame .., fun r => ?_⟩
  exact (hloaded r).trans (if_congr (by omega) rfl rfl)

/-- What `Fx65` does where the guard refuses an address of the block. -/
theorem exec_ldVxMem_refused {x : Reg} {s : State} {k : Nat} (h : firstRefused s (x.toNat + 1) k) :
    ∃ t, exec (.ldVxMem x) s = .next t ∧
      stoppedWith (recordAt .memoryOutOfRange (some (BitVec.ofNat 17 (s.i.toNat + k))) (encode (.ldVxMem x)) s)
        { s with v := t.v } t ∧
      ∀ r : Reg, t.reg r = if r.toNat < k then s.peek (s.i.toNat + r.toNat) else s.reg r := by
  have hx := x.isLt
  obtain ⟨hk, hbefore, hat⟩ := (firstRefused_iff ..).1 h
  obtain ⟨hstop, hloaded⟩ := loadRegs_refused s.i.toNat 0 (x.toNat + 1) k s (by omega) (by omega)
    (fun j _ hj => hbefore j hj) hat
  refine ⟨_, (exec_ldVxMem x s).trans (congrArg _ (finishRun_refused _ _ _ hstop)), ?_, fun r => ?_⟩
  · rw [loadRegs_frame]
    exact raiseAt_stoppedWith ..
  · exact (hloaded r).trans (if_congr (by omega) rfl rfl)

/-- Settles O51: a run of x + 1 loads, done or refused. -/
theorem ldVxMemLoadsRegisters : Obligations.LdVxMemLoadsRegisters := fun x _ =>
  ⟨decode_encode (.ldVxMem x), exec_ldVxMem_done, fun _ => exec_ldVxMem_refused⟩

/-! ## A load after a store -/

theorem onlyMem_i {s t : State} (h : onlyMem s t) : t.i = s.i := by rw [h]

theorem onlyMem_reg {s t : State} (h : onlyMem s t) (r : Reg) : t.reg r = s.reg r := by rw [h]; rfl

/-- Registers that all read as before are the registers as before. -/
theorem eq_of_onlyRegs {s t : State} (h : onlyRegs s t) (hreg : ∀ r, t.reg r = s.reg r) : t = s := by
  have hv : t.v = s.v := Vector.ext fun k hk => hreg (BitVec.ofFin ⟨k, hk⟩)
  rw [h, hv]

/-- A load from where a store put V[0] … V[x] gives them their values again, from every state with that memory and I. -/
theorem exec_ldVxMem_of_stored {x : Reg} {s t u : State} (hblock : blockAllowed s (x.toNat + 1))
    (hstored : firstStored (x.toNat + 1) (regBytes x s) s t) (hmem : u.mem = t.mem) (hi : u.i = s.i) :
    ∃ w, exec (.ldVxMem x) u = .next w ∧ onlyRegs u w ∧
      ∀ r : Reg, w.reg r = if r.toNat ≤ x.toNat then s.reg r else u.reg r := by
  obtain ⟨w, hexec, hframe, hloaded⟩ := exec_ldVxMem_done (x := x) (s := u) (by rwa [blockAllowed, hi])
  refine ⟨w, hexec, hframe, fun r => ?_⟩
  rw [hloaded r, hi, peek_congr hmem]
  exact ite_congr rfl (fun hr => hstored.register hr (Nat.lt_succ_of_le hr)) fun _ => rfl

/-- Settles O52: the load reads the stored bytes; run at once, it gives each register the value it still has. -/
theorem loadAfterStoreRestoresRegisters : Obligations.LoadAfterStoreRestoresRegisters := by
  intro x s hblock
  obtain ⟨t, hexec, hframe, hstored⟩ := exec_ldMemVx_done hblock
  refine ⟨t, hexec, hframe, fun a ha => hstored.2 a fun j hj => ha j (Nat.le_of_lt_succ hj),
    fun _ => exec_ldVxMem_of_stored hblock hstored, ?_⟩
  obtain ⟨w, hw, honly, hback⟩ := exec_ldVxMem_of_stored hblock hstored rfl (onlyMem_i hframe)
  rw [hw, eq_of_onlyRegs honly fun r => by rw [hback r, onlyMem_reg hframe, ite_self]]

end Sys2Proof.Machine
end

section
/-! # SUPPORT. The family of spec/43_display.md: CLS, the blit and DRW (R190 to R193).

A draw XORs each cell with a bit that the sprite and its place fix and the framebuffer does not (`flips`). Of at most 32 rows
no two fall on one row of the display, so that bit is then the answer to `covers`. -/

namespace Sys2Proof.Machine

theorem xor_eq_true_iff_toggled (a b : Bool) : (a ^^ b) = true ↔ (a = true ∧ ¬ b = true) ∨ (a = false ∧ b = true) := by
  cases a <;> simp

/-! ## One sprite byte -/

/-- The byte `b`, drawn into the row `row` from column `cx` on, has a set bit on the cell. -/
def byteCovers (cx : Nat) (row : Fin 32) (b : Byte) (r' : Fin 32) (c' : Fin 64) : Bool :=
  (List.range 8).any fun c => decide (r' = row ∧ c'.val = (cx + c) % 64) && b.getLsbD (7 - c)

theorem byteCovers_iff (cx : Nat) (row : Fin 32) (b : Byte) (r' : Fin 32) (c' : Fin 64) : byteCovers cx row b r' c' = true ↔
    ∃ c < 8, r' = row ∧ c'.val = (cx + c) % 64 ∧ b.getLsbD (7 - c) = true := by
  simp only [byteCovers, List.any_eq_true, List.mem_range, Bool.and_eq_true, decide_eq_true_iff, and_assoc]

/-- `blitByte_cell` as an XOR. -/
theorem cell_blitByte (cx : Nat) (row : Fin 32) (b : Byte) (d : FrameBuffer × Bool) (r' : Fin 32) (c' : Fin 64) :
    cell (blitByte cx row b d).1 r' c' = (cell d.1 r' c' ^^ byteCovers cx row b r' c') := by
  rw [Bool.eq_iff_iff, xor_eq_true_iff_toggled, byteCovers_iff]
  exact blitByte_cell cx row b d r' c'

/-- `blitByte_collision` over the cells of the display. -/
theorem collision_blitByte (cx : Nat) (row : Fin 32) (b : Byte) (d : FrameBuffer × Bool) :
    (blitByte cx row b d).2 = true ↔
      d.2 = true ∨ ∃ r' c', cell d.1 r' c' = true ∧ byteCovers cx row b r' c' = true := by
  simp only [blitByte_collision, byteCovers_iff]
  refine or_congr_right ⟨fun ⟨c, hc, hcell, hbit⟩ => ⟨row, _, hcell, c, hc, rfl, rfl, hbit⟩, ?_⟩
  rintro ⟨_, c', hcell, c, hc, rfl, hcol, hbit⟩
  obtain rfl : c' = Fin.ofNat 64 (cx + c) := Fin.ext hcol
  exact ⟨c, hc, hcell, hbit⟩

/-! ## The cells a sprite covers -/

theorem not_covers_nil (cx cy : Nat) (row : Fin 32) (col : Fin 64) : ¬ covers cx cy [] row col :=
  fun ⟨_, hr, _⟩ => absurd hr (Nat.not_lt_zero _)

theorem covers_cons (cx cy : Nat) (b : Byte) (bs : List Byte) (row : Fin 32) (col : Fin 64) :
    covers cx cy (b :: bs) row col ↔
      byteCovers cx (Fin.ofNat 32 cy) b row col = true ∨ covers cx (cy + 1) bs row col := by
  rw [byteCovers_iff]
  constructor
  · rintro ⟨_ | r, hr, c, hc, hrow, hcol, hbit⟩
    · exact .inl ⟨c, hc, Fin.ext hrow, hcol, hbit⟩
    · exact .inr ⟨r, Nat.lt_of_succ_lt_succ hr, c, hc, by omega, hcol, hbit⟩
  · rintro (⟨c, hc, rfl, hcol, hbit⟩ | ⟨r, hr, c, hc, hrow, hcol, hbit⟩)
    · exact ⟨0, Nat.succ_pos _, c, hc, rfl, hcol, hbit⟩
    · exact ⟨r + 1, Nat.succ_lt_succ hr, c, hc, by omega, hcol, hbit⟩

/-- Fewer than 32 rows below a sprite byte do not come round to its row. -/
theorem byteCovers_eq_false_of_covers {cx cy : Nat} {b : Byte} {bs : List Byte} {row : Fin 32} {col : Fin 64}
    (hlen : bs.length < 32) (h : covers cx (cy + 1) bs row col) : byteCovers cx (Fin.ofNat 32 cy) b row col = false := by
  obtain ⟨r, hr, _, _, hrow, _⟩ := h
  refine Bool.eq_false_iff.2 fun hb => ?_
  obtain ⟨_, _, hrow', _⟩ := (byteCovers_iff ..).1 hb
  have hsame : row.val = cy % 32 := congrArg Fin.val hrow'
  omega

/-- A byte that is not 0 has a set bit in one of its eight columns. -/
theorem ne_zero_iff_column (b : Byte) : b ≠ 0 ↔ ∃ c < 8, b.getLsbD (7 - c) = true := by
  constructor
  · refine fun hb => by_contra fun hnone => hb (BitVec.eq_of_getLsbD_eq fun k hk => ?_)
    have hclear : b.getLsbD k = false := Bool.eq_false_iff.2 fun hbit =>
      hnone ⟨7 - k, by omega, by rwa [Nat.sub_sub_self (by omega)]⟩
    exact hclear.trans BitVec.getLsbD_zero.symm
  · rintro ⟨c, _, hbit⟩ rfl
    exact Bool.false_ne_true (BitVec.getLsbD_zero.symm.trans hbit)

/-- A sprite covers some cell exactly when it has a set bit. -/
theorem exists_covers_iff (cx cy : Nat) (sprite : List Byte) :
    (∃ row col, covers cx cy sprite row col) ↔ ∃ b ∈ sprite, b ≠ 0 := by
  simp only [ne_zero_iff_column]
  constructor
  · rintro ⟨_, _, r, hr, c, hc, _, _, hbit⟩
    exact ⟨sprite[r], List.getElem_mem hr, c, hc, hbit⟩
  · rintro ⟨b, hb, c, hc, hbit⟩
    obtain ⟨r, hr, rfl⟩ := List.mem_iff_getElem.1 hb
    exact ⟨Fin.ofNat 32 (cy + r), Fin.ofNat 64 (cx + c), r, hr, c, hc, rfl, rfl, hbit⟩

/-! ## The blit (R192) -/

/-- Whether drawing the sprite at (cx, cy) flips the cell: the XOR over the sprite's rows. -/
def flips (cx : Nat) : Nat → List Byte → Fin 32 → Fin 64 → Bool
  | _, [], _, _ => false
  | cy, b :: bs, row, col => byteCovers cx (Fin.ofNat 32 cy) b row col ^^ flips cx (cy + 1) bs row col

theorem cell_blitFrom (cx cy r : Nat) (sprite : List Byte) (d : FrameBuffer × Bool) (row : Fin 32) (col : Fin 64) :
    cell (blitFrom cx cy r sprite d).1 row col = (cell d.1 row col ^^ flips cx (cy + r) sprite row col) := by
  induction sprite generalizing r d with
  | nil => exact (Bool.xor_false _).symm
  | cons b bs ih => rw [blitFrom, ih, cell_blitByte, Bool.xor_assoc]; rfl

theorem cell_blit (cx cy : Nat) (sprite : List Byte) (fb : FrameBuffer) (row : Fin 32) (col : Fin 64) :
    cell (blit cx cy sprite fb).1 row col = (cell fb row col ^^ flips cx cy sprite row col) :=
  cell_blitFrom cx cy 0 sprite (fb, false) row col

theorem flips_iff_covers {cx cy : Nat} {sprite : List Byte} (hlen : sprite.length ≤ 32) (row : Fin 32) (col : Fin 64) :
    flips cx cy sprite row col = true ↔ covers cx cy sprite row col := by
  induction sprite generalizing cy with
  | nil => exact iff_of_false Bool.false_ne_true (not_covers_nil cx cy row col)
  | cons b bs ih =>
    rw [covers_cons, ← ih (Nat.le_of_succ_le hlen), flips]
    cases htail : flips cx (cy + 1) bs row col with
    | false => simp
    | true =>
      have hcov := (ih (Nat.le_of_succ_le hlen)).1 htail
      rw [byteCovers_eq_false_of_covers hlen hcov]
      simp

theorem cell_blit_iff {cx cy : Nat} {sprite : List Byte} (hlen : sprite.length ≤ 32) (fb : FrameBuffer) (row : Fin 32)
    (col : Fin 64) : cell (blit cx cy sprite fb).1 row col = true ↔
      (cell fb row col = true ∧ ¬ covers cx cy sprite row col) ∨ (cell fb row col = false ∧ covers cx cy sprite row col) := by
  rw [cell_blit, xor_eq_true_iff_toggled, flips_iff_covers hlen]

/-- The rows still to come meet the framebuffer as it was: the row just drawn is none of theirs. -/
theorem collision_blitFrom {cx cy r : Nat} {sprite : List Byte} (hlen : sprite.length ≤ 32) (d : FrameBuffer × Bool) :
    (blitFrom cx cy r sprite d).2 = true ↔
      d.2 = true ∨ ∃ row col, cell d.1 row col = true ∧ covers cx (cy + r) sprite row col := by
  induction sprite generalizing r d with
  | nil => simp [blitFrom, not_covers_nil]
  | cons b bs ih =>
    have hkept : ∀ row col, (cell (blitByte cx (Fin.ofNat 32 (cy + r)) b d).1 row col = true ∧
        covers cx (cy + (r + 1)) bs row col) ↔ (cell d.1 row col = true ∧ covers cx (cy + (r + 1)) bs row col) :=
      fun row col => and_congr_left fun hcov => by
        rw [cell_blitByte, byteCovers_eq_false_of_covers (cy := cy + r) hlen hcov, Bool.xor_false]
    rw [blitFrom, ih (Nat.le_of_succ_le hlen), collision_blitByte]
    simp only [hkept, covers_cons, and_or_left, exists_or, or_assoc, Nat.add_assoc]

theorem collision_blit_iff {cx cy : Nat} {sprite : List Byte} (hlen : sprite.length ≤ 32) (fb : FrameBuffer) :
    (blit cx cy sprite fb).2 = true ↔ ∃ row col, cell fb row col = true ∧ covers cx cy sprite row col :=
  (collision_blitFrom (r := 0) hlen (fb, false)).trans (or_iff_right Bool.false_ne_true)

/-- Settles O54: the blit cell by cell, and its collision. -/
theorem blitTogglesCoveredCells : Obligations.BlitTogglesCoveredCells := fun _ _ _ fb hlen =>
  ⟨cell_blit_iff hlen fb, collision_blit_iff hlen fb⟩

/-- After a draw on a clear screen the set cells are those the sprite covers. -/
theorem cell_blit_blank {cx cy : Nat} {sprite : List Byte} (hlen : sprite.length ≤ 32) (row : Fin 32) (col : Fin 64) :
    cell (blit cx cy sprite FrameBuffer.blank).1 row col = true ↔ covers cx cy sprite row col := by
  rw [cell_blit, cell_blank, Bool.false_xor, flips_iff_covers hlen]

/-- Settles O55: each cell is flipped twice, by the same bit; the second draw on a clear screen meets the cells of the first. -/
theorem drawingTwiceRestores : Obligations.DrawingTwiceRestores := by
  intro cx cy sprite fb
  refine ⟨FrameBuffer.ext_cell _ _ fun row col => ?_, fun hlen => ⟨?_, ?_⟩⟩
  · rw [cell_blit, cell_blit, Bool.xor_assoc, Bool.xor_self, Bool.xor_false]
  · simp [← Bool.not_eq_true, collision_blit_iff hlen]
  · simp only [collision_blit_iff hlen, cell_blit_blank hlen, and_self, exists_covers_iff]

/-! ## DRW (R191) -/

/-- What DRW does where the guard allows the sprite's bytes. -/
theorem exec_drw_done {n : Nibble} {s : State} (x y : Reg) (h : blockAllowed s n.toNat) :
    exec (.drw x y n) s = .next (drawSprite (s.reg x) (s.reg y) (spriteAt s n.toNat) s) := by
  have hread : readBytes s (effAddr s 0) n.toNat = .ok (spriteAt s n.toNat) :=
    readBytes_ok s s.i.toNat n.toNat fun _ => blockAllowed_inRange h
  simp only [exec, execDrw, hread]

/-- What DRW does where the guard refuses one of the sprite's bytes. -/
theorem exec_drw_refused {n : Nibble} {s : State} {k : Nat} (x y : Reg) (h : firstRefused s n.toNat k) :
    exec (.drw x y n) s =
      .next (raiseAt .memoryOutOfRange (some (s.i.toNat + k)) (encode (.drw x y n)) s) := by
  obtain ⟨hk, hbefore, hat⟩ := (firstRefused_iff ..).1 h
  have hread : readBytes s (effAddr s 0) n.toNat = .error (s.i.toNat + k) :=
    readBytes_refused s s.i.toNat n.toNat k hk hbefore hat
  simp only [exec, execDrw, hread]

/-- A 4-bit row count stays within the 32 rows of the display. -/
theorem spriteAt_length_le (s : State) (n : Nibble) : (spriteAt s n.toNat).length ≤ 32 := by
  have hn := n.isLt
  rw [spriteAt, List.length_map, List.length_range]
  omega

theorem drawSprite_flag (cx cy : Byte) (sprite : List Byte) (s : State) :
    (drawSprite cx cy sprite s).reg 15 = flagByte (blit cx.toNat cy.toNat sprite s.fb).2 := State.reg_setReg_same ..

theorem drawSprite_regsBut (cx cy : Byte) (sprite : List Byte) (s : State) : regsBut 15 s (drawSprite cx cy sprite s) :=
  fun r hr => State.reg_setReg_ne _ 15 r _ hr

/-- Settles O56: the blit of the n bytes from I on, its collision written to VF. -/
theorem drwDrawsSprite : Obligations.DrwDrawsSprite := by
  intro x y n s
  have hlen := spriteAt_length_le s n
  refine ⟨decode_encode (.drw x y n), fun hblock => ⟨_, exec_drw_done x y hblock, rfl, drawSprite_regsBut _ _ _ s,
    cell_blit_iff hlen s.fb, fun hmeets => ?_, fun hmisses => ?_⟩⟩ <;> rw [drawSprite_flag]
  · rw [(collision_blit_iff hlen s.fb).2 hmeets]; rfl
  · rw [Bool.eq_false_iff.2 (mt (collision_blit_iff hlen s.fb).1 hmisses)]; rfl

/-- Settles O57: the reads come before the blit, so a refused one leaves only the stop. -/
theorem drwStopsWithoutDrawing : Obligations.DrwStopsWithoutDrawing := fun x y _ _ _ hrefused =>
  ⟨_, exec_drw_refused x y hrefused, raiseAt_stoppedWith ..⟩

/-! ## CLS (R190) -/

/-- Settles O53: the framebuffer is replaced by the blank one. -/
theorem clsUnsetsEveryCell : Obligations.ClsUnsetsEveryCell := fun x _ =>
  ⟨decode_encode (.cls x), _, rfl, cell_blank, rfl⟩

end Sys2Proof.Machine
end

section
/-! # SUPPORT. The family of spec/44_timers_keys.md: timer access (R202 to R204), the key skips (R205, R206) and the wait for
a key (R207, R208). -/

namespace Sys2Proof.Machine

/-! ## Timer access -/

/-- `sound_on` is whether ST is not zero (spec/10_state.md R31). -/
theorem soundOn_iff (s : State) : soundOn s = true ↔ s.st ≠ 0 := bne_iff_ne

/-- Settles O58: one register write, or one timer overwritten. -/
theorem timerAccessIsImmediate : Obligations.TimerAccessIsImmediate := fun x s =>
  ⟨decode_encode (.ldVxDt x), decode_encode (.ldDtVx x), decode_encode (.ldStVx x),
    ⟨s.setReg x s.dt, rfl, State.reg_setReg_same .., setReg_changes_only ..⟩,
    ⟨{ s with dt := s.reg x }, rfl, rfl, rfl⟩,
    ⟨{ s with st := s.reg x }, rfl, rfl, rfl, soundOn_iff _⟩⟩

/-! ## Key skips -/

/-- Settles O59: both instructions are skips, on the answer of `KeyHeld` and on its negation. -/
theorem keySkipsFollowKeyHeld : Obligations.KeySkipsFollowKeyHeld := by
  intro x s
  have hnot : (!keyHeldNow (s.reg x) s) = true ↔ ¬ Config.keyHeld s.instant (s.reg x) = true := Bool.not_iff_not
  refine ⟨decode_encode (.skp x), decode_encode (.sknp x), exec_skip rfl Iff.rfl, ?_⟩
  obtain ⟨t, hexec, hframe, hpc⟩ := exec_skip (i := .sknp x) rfl hnot
  exact ⟨t, hexec, hframe, hpc.trans (ite_not ..)⟩

/-! ## One poll of the keyboard -/

/-- A poll that a key answers writes the key to V[x] and leaves the phase RUN. -/
theorem pollKey_of_some {s : State} {k : Nibble} (x : Reg) (h : Config.keyWait s.instant = some k) :
    pollKey x s = { s.setReg x (zext8 k) with phase := .run } := by
  simp only [pollKey, h]

/-- A poll that no key answers leaves the phase WAIT_KEY(x). -/
theorem pollKey_of_none {s : State} (x : Reg) (h : Config.keyWait s.instant = none) :
    pollKey x s = { s with phase := .waitKey x } := by
  simp only [pollKey, h]

theorem zext8_eq_ofNat (k : Nibble) : zext8 k = BitVec.ofNat 8 k.toNat := (BitVec.ofNat_toNat 8 k).symm

/-- What a poll that a key answers does to V[x], to the other registers and to the rest of the state. -/
theorem pollKey_loads {s : State} {k : Nibble} (x : Reg) (h : Config.keyWait s.instant = some k) :
    (pollKey x s).reg x = BitVec.ofNat 8 k.toNat ∧ regsBut x s (pollKey x s) ∧
      pollKey x s = { s with v := (pollKey x s).v, phase := .run } := by
  refine ⟨?_, pollKey_reg_ne x s, ?_⟩ <;> rw [pollKey_of_some x h]
  · exact (State.reg_setReg_same s x (zext8 k)).trans (zext8_eq_ofNat k)
  · rfl

/-- Writing the phase a state is in changes nothing. -/
theorem withPhase_self {s : State} {p : Phase} (h : s.phase = p) : { s with phase := p } = s := by rw [← h]

/-- Settles O60: the instruction is the first poll, made in phase RUN. -/
theorem ldVxKLoadsOrWaits : Obligations.LdVxKLoadsOrWaits := by
  intro x s hrun
  refine ⟨decode_encode (.ldVxK x), pollKey x s, rfl, fun k hk => ?_, pollKey_of_none x⟩
  obtain ⟨hkey, hregs, hrest⟩ := pollKey_loads x hk
  exact ⟨hkey, hregs, hrest.trans (withPhase_self (s := { s with v := (pollKey x s).v }) hrun)⟩

/-- In phase WAIT_KEY(x) the core step is one poll for register x (spec/10_state.md R21). -/
theorem coreStep_of_waitKey {s : State} {x : Reg} (h : s.phase = .waitKey x) : coreStep s = .next (pollKey x s) := by
  simp only [coreStep, h]

/-- Settles O15: the step is one poll, and without a key the phase it writes is the one the core is in. -/
theorem stepInWaitKeyPollsOnce : Obligations.StepInWaitKeyPollsOnce := fun _ x hwait =>
  ⟨_, step_of_coreStep (coreStep_of_waitKey hwait), fun _ => pollKey_loads x,
    fun hnone => (pollKey_of_none x hnone).trans (withPhase_self hwait)⟩

end Sys2Proof.Machine
end

section
/-! # SUPPORT. The family of spec/60_exceptions.md: what stops the core and what the fault record then says (R220 to R229), and
the ticks of the timers (R240, R243). -/

namespace Sys2Proof.Machine

/-! ## Every step answers (R220, R229) -/

theorem coreStep_answers_next (s : State) : ∃ t, coreStep s = .next t := by
  rcases coreStep_cases s with ⟨_, e⟩ | ⟨x, _, e⟩ | ⟨a, _, _, _, e⟩ | ⟨w, _, _, _, e⟩ | ⟨i, _, _, _, e⟩
  · exact ⟨_, e⟩
  · exact ⟨_, e⟩
  · exact ⟨_, e⟩
  · exact ⟨_, e⟩
  · rw [e]
    exact exec_answers_next i _

/-- Settles O17: the core step answers a next state, and time passes after it. -/
theorem stepAlwaysAnswersNext : Obligations.StepAlwaysAnswersNext := by
  intro s
  obtain ⟨t, ht⟩ := coreStep_answers_next s
  exact ⟨_, step_of_coreStep ht⟩

/-! ## A stop in the fetch or in the decode (R223, R225) -/

/-- In phase RUN a refused fetch is all the core step does. -/
theorem coreStep_of_refused {s : State} {a : Nat} (hrun : s.phase = .run) (hfetch : fetch s = .error a) :
    coreStep s = .next (fetchFault a s) := by
  simp only [coreStep, hrun, hfetch]

/-- In phase RUN an Invalid word stops the core once the fetch has advanced pc (decision D22). -/
theorem coreStep_of_invalid {s : State} {w : Word} (hrun : s.phase = .run) (hlo : 512 ≤ s.pc.toNat)
    (hhi : s.pc.toNat ≤ 4094) (hd : decode (wordAtPc s) = .invalid w) :
    coreStep s = .next (raiseAt .invalidInstruction none w { s with pc := s.pc + 2 }) := by
  simp only [coreStep, hrun, fetch_ok s hlo hhi, hd]
  rfl

/-- The fetch of a step advances pc by 2, so a fault raised after it records the pc the step began at (log entry 9). -/
theorem recordAt_fetched (c : FaultCause) (a : Option (BitVec 17)) (w : Word) (s : State) :
    recordAt c a w { s with pc := s.pc + 2 } = ⟨c, a, some w, s.pc⟩ := by
  rw [recordAt, BitVec.add_sub_cancel]

/-- Settles O13: fetch refuses at pc, or at pc + 1 where pc is 4095. -/
theorem stepStopsOnRefusedFetch : Obligations.StepStopsOnRefusedFetch := fun s hrun =>
  ⟨fun hout => ⟨_, step_of_coreStep (coreStep_of_refused hrun (fetch_refused_first s hout)), rfl⟩,
    fun hlast => ⟨_, step_of_coreStep (coreStep_of_refused hrun (fetch_refused_second s hlast)), rfl⟩⟩

/-- Settles O14: the core step is the raise of InvalidInstruction after the fetch. -/
theorem stepStopsOnInvalidWord : Obligations.StepStopsOnInvalidWord := by
  intro s hrun hlo hhi hd
  refine ⟨_, step_of_coreStep (coreStep_of_invalid hrun hlo hhi hd), ?_⟩
  rw [← recordAt_fetched]
  exact raiseAt_stoppedWith ..

/-! ## A stop in the execute stage (R222, R226, R227) -/

/-- An instruction that stops the core leaves pc as it was and records the cause it may raise, its own word, and with
MemoryOutOfRange a refused address, which fits the 17 bits of the record. -/
theorem exec_stops {i : Instr} {s t : State} (hrun : s.phase = .run) (h : exec i s = .next t) (hf : t.phase = .fault) :
    ∃ c a, mayRaise i c ∧ t.faultRecord = some (recordAt c a (encode i) s) ∧ t.pc = s.pc ∧
      (c = .memoryOutOfRange → ∃ n, a = some n ∧ ¬ allowed n.toNat) := by
  rcases exec_status i s t h with ⟨hp, _⟩ | ⟨x, _, _, hp | hp⟩ | ⟨c, a, hc, _, hr, hpc, ha⟩
  · simp [hp, hrun] at hf
  · simp [hp] at hf
  · simp [hp] at hf
  · refine ⟨c, a.map (BitVec.ofNat 17), hc, hr, hpc, fun hm => ?_⟩
    obtain ⟨n, rfl, hn, hlt⟩ := ha hm
    refine ⟨BitVec.ofNat 17 n, rfl, ?_⟩
    rwa [not_allowed_iff, BitVec.toNat_ofNat, Nat.mod_eq_of_lt hlt]

/-- Settles O25: the record of an instruction that stops the core. -/
theorem faultCauseFitsInstruction : Obligations.FaultCauseFitsInstruction := by
  intro i s t hrun h hf
  obtain ⟨c, a, hc, hr, _, ha⟩ := exec_stops hrun h hf
  exact ⟨_, hr, hc, ha⟩

/-! ## The record of a step (R226, R228) -/

/-- A core step from phase RUN that ends in phase FAULT stopped in its fetch, or after it with the word at pc fetched. -/
theorem coreStep_stops {s t : State} (hrun : s.phase = .run) (h : coreStep s = .next t) (hf : t.phase = .fault) :
    (¬ (512 ≤ s.pc.toNat ∧ s.pc.toNat ≤ 4094) ∧ t.pc = s.pc ∧ ∃ c a, t.faultRecord = some ⟨c, a, none, s.pc⟩) ∨
    ((512 ≤ s.pc.toNat ∧ s.pc.toNat ≤ 4094) ∧ t.pc = s.pc + 2 ∧
      ∃ c a, t.faultRecord = some ⟨c, a, some (wordAtPc s), s.pc⟩) := by
  rcases coreStep_cases s with ⟨hp, _⟩ | ⟨x, hp, _⟩ | ⟨a, _, hpc, _, e⟩ | ⟨w, _, ⟨hlo, hhi⟩, hd, _⟩ | ⟨i, _, hpc, hd, e⟩
  · simp [hp] at hrun
  · simp [hp] at hrun
  · cases e.symm.trans h
    exact .inl ⟨hpc, rfl, _, _, rfl⟩
  · obtain rfl := decode_invalid_word hd
    cases (coreStep_of_invalid hrun hlo hhi hd).symm.trans h
    exact .inr ⟨⟨hlo, hhi⟩, rfl, _, _, congrArg some (recordAt_fetched _ none _ s)⟩
  · obtain ⟨c, a, _, hr, hpc', _⟩ := exec_stops (s := { s with pc := s.pc + 2 }) hrun (e.symm.trans h) hf
    rw [recordAt_fetched, encode_of_decode hd] at hr
    exact .inr ⟨hpc, hpc', c, a, hr⟩

/-- Settles O24: time touches neither the record nor pc, so both are those of the core step. -/
theorem faultRecordTellsWordAndPc : Obligations.FaultRecordTellsWordAndPc := by
  intro s u hrun h hf
  obtain ⟨t, ht, rfl⟩ := (step_next_iff s u).1 h
  rcases coreStep_stops hrun ht hf with ⟨hout, hpc, c, a, hr⟩ | ⟨hin, hpc, c, a, hr⟩
  · exact ⟨_, hr, rfl, fun hin => absurd hin hout, fun _ => ⟨rfl, hpc⟩⟩
  · exact ⟨_, hr, rfl, fun _ => ⟨rfl, hpc⟩, fun hout => absurd hin hout⟩

/-! ## Ticks (R240) -/

/-- A tick leaves a stopped timer. -/
@[simp] theorem tickCell_stopped (v : Byte) : tickCell false v = v := rfl

/-- A tick takes a running timer down by 1, and leaves 0 at 0. -/
theorem tickCell_running_toNat (v : Byte) : (tickCell true v).toNat = v.toNat - 1 := by
  by_cases hv : v = 0
  · rw [hv]; rfl
  · have hle : 1 ≤ v := Nat.pos_of_ne_zero fun h0 => hv (BitVec.eq_of_toNat_eq h0)
    calc (tickCell true v).toNat = (v - 1).toNat := congrArg BitVec.toNat (if_pos (bne_iff_ne.2 hv))
      _ = v.toNat - 1 := BitVec.toNat_sub_of_le hle

theorem tickCell_running_iterate_toNat (k : Nat) (v : Byte) : ((tickCell true)^[k] v).toNat = v.toNat - k := by
  induction k generalizing v with
  | zero => rfl
  | succ k ih => rw [Function.iterate_succ_apply, ih, tickCell_running_toNat]; omega

/-- `k` ticks of a timer cell in closed form. -/
theorem tickCell_iterate (running : Bool) (k : Nat) (v : Byte) :
    (tickCell running)^[k] v = BitVec.ofNat 8 (if running then v.toNat - k else v.toNat) := by
  cases running with
  | false => simp [Function.iterate_fixed (tickCell_stopped v) k]
  | true =>
    rw [if_pos rfl, ← tickCell_running_iterate_toNat, BitVec.ofNat_toNat, BitVec.setWidth_eq]

/-- Settles O26: ticks of a timer are ticks of its cell, counted down in closed form. -/
theorem ticksCountDownToZero : Obligations.TicksCountDownToZero := by
  intro k s
  rw [tickDt_iterate, tickSt_iterate, tickCell_iterate, tickCell_iterate]
  exact ⟨rfl, rfl⟩

/-! ## Time in phase FAULT (R229) -/

/-- However many ticks fall, a stopped timer keeps its value. -/
@[simp] theorem afterTicks_stopped (k : Nat) (v : Byte) : afterTicks false k v = v := if_pos (tickCell_stopped v)

/-- In phase FAULT the core step does nothing (spec/10_state.md R21). -/
theorem coreStep_of_fault {s : State} (hfault : s.phase = .fault) : coreStep s = .next s := by
  simp only [coreStep, hfault]

/-- Settles O16: the step is time alone. -/
theorem stepInFaultChangesOnlyTimers : Obligations.StepInFaultChangesOnlyTimers := by
  intro s hfault
  refine ⟨elapse s, step_of_coreStep (coreStep_of_fault hfault), rfl, rfl, elapse_dt_le s, elapse_st_le s,
    fun hstopped => ?_, fun hstopped => ?_⟩
  · rw [elapse_dt, hstopped, afterTicks_stopped]
  · rw [elapse_st, hstopped, afterTicks_stopped]

/-! ## The document's timer test (R243) -/

/-- After `Fx15` has set the started delay timer, `k` ticks leave the register's value less `k`. -/
theorem dt_set_then_ticks (k : Nat) (b : Byte) (s : State) :
    (tickDt^[k] { startDt s with dt := b }).dt = BitVec.ofNat 8 (b.toNat - k) := by
  rw [tickDt_iterate]
  exact tickCell_iterate true k b

theorem tickDt_iterate_reg (k : Nat) (s : State) (r : Reg) : (tickDt^[k] s).reg r = s.reg r := by
  rw [tickDt_iterate]; rfl

/-- Settles O27: the countdown from 10, and ticks leave the registers a later set reads. -/
theorem timerSetThenTenTicksIsZero : Obligations.TimerSetThenTenTicksIsZero := by
  intro s x hten
  refine ⟨{ startDt s with dt := s.reg x }, rfl, ?_, ?_, fun k y => ⟨_, rfl, tickDt_iterate_reg k _ y⟩⟩
  · rw [dt_set_then_ticks, hten]; rfl
  · rw [dt_set_then_ticks, hten]; rfl

end Sys2Proof.Machine
end
